-- ==== Sys2Proof/Word.lean ====
section
/-! DEFINITION. The widths of the FISC core: bytes, instruction addresses, lines of text. -/

namespace Sys2Proof

/-- A register value or a packed instruction: 8 bits, bit 7 most significant (R5, R6, R10, R45). -/
abbrev Byte := BitVec 8

/-- An instruction address, the width of `pc` and of a BNZ target: 6 bits (R5, R13, R47). -/
abbrev Addr := BitVec 6

/-- A line of source, object file or disassembly text, as characters. -/
abbrev Text := List Char

end Sys2Proof
end

