-- ==== Sys2Proof/Syntax.lean ====
section
/-! DEFINITION. The decoded instructions (R48), with opcodes and registers as two separate enumerations (R49). -/

namespace Sys2Proof

/-- The four general registers `x[0]` to `x[3]` (R10); none is hard-wired and none has an alias (R11). -/
inductive Reg where
  | r0 | r1 | r2 | r3
deriving DecidableEq, Repr

/-- The index of a register in the spec's notation `x[i]` (R10). -/
def Reg.index : Reg → Nat
  | .r0 => 0
  | .r1 => 1
  | .r2 => 2
  | .r3 => 3

/-- The four opcodes (R1, R49). They share the values 0 to 3 with the register indices, and are another type. -/
inductive Opcode where
  | add | and | not | bnz
deriving DecidableEq, Repr

/-- A decoded instruction (R48): "exactly the operand fields valid for that opcode". Operands stand in the order
of the source text, destination first (R60). -/
inductive Instr where
  | add (rd rn rm : Reg)
  | and (rd rn rm : Reg)
  | not (rd rn : Reg)
  | bnz (addr : Addr)
deriving DecidableEq, Repr

/-- The opcode of a decoded instruction (R48). -/
def Instr.opcode : Instr → Opcode
  | .add _ _ _ => .add
  | .and _ _ _ => .and
  | .not _ _ => .not
  | .bnz _ => .bnz

/-- The register an instruction writes; BNZ writes none (R12). -/
def Instr.dest : Instr → Option Reg
  | .add rd _ _ => some rd
  | .and rd _ _ => some rd
  | .not rd _ => some rd
  | .bnz _ => none

/-- The registers an instruction reads: ADD and AND two, NOT one, BNZ none (R12). -/
def Instr.sources : Instr → List Reg
  | .add _ rn rm => [rn, rm]
  | .and _ rn rm => [rn, rm]
  | .not _ rn => [rn]
  | .bnz _ => []

/-- What a caller of the codec presents: an opcode and operand fields that may be absent or out of range (R27,
R48, R55). `none` is "not applicable", not zero. -/
structure FieldSet where
  op   : Opcode
  rn   : Option Nat
  rm   : Option Nat
  rd   : Option Nat
  addr : Option Nat
deriving DecidableEq, Repr

end Sys2Proof
end

