-- ==== Sys2Proof/Config.lean ====
section
/-! DEFINITION. What is fixed for a machine: the constants of R5, the named open parameters of the spec (D4, D9),
and the free values of the codec ports (D12). The parameters' default values stand in Machine/Engine.lean. -/

namespace Sys2Proof

/-- PROG_SLOTS: "fixed 64-slot addressable program space" (R5, R32). -/
def progSlots : Nat := 64

/-- The step budget when the caller gives none: "default 20" (R5, R99, U15). -/
def defaultBudget : Nat := 20

/-- The open parameter `NOT_RM_NONZERO` (D4, U1): what a NOT byte with non-zero bits 3 and 2 does. -/
inductive NotRmNonzero where
  /-- The bits are ignored (the default, R53). -/
  | ignore
  /-- The byte faults (the alternative of U1). -/
  | fault
deriving DecidableEq, Repr

/-- The open parameters of the spec that a step takes. -/
structure Params where
  /-- `NOT_RM_NONZERO` (D4). -/
  notRm : NotRmNonzero
  /-- `OBS_INDEX_BASE`, the index of the first observation (D9). -/
  obsIndexBase : Nat
deriving DecidableEq, Repr

/-- FREE VALUE (log 9; D12): the `dec_rn` wires when `dec_rn_rd_valid = 0`. -/
opaque Config.freeRnWire : Byte → BitVec 2

/-- FREE VALUE (log 9; D12): the `dec_rm` wires when `dec_rm_valid = 0`. -/
opaque Config.freeRmWire : Byte → BitVec 2

/-- FREE VALUE (log 9; D12): the `dec_rd` wires when `dec_rn_rd_valid = 0`. -/
opaque Config.freeRdWire : Byte → BitVec 2

/-- FREE VALUE (log 9; D12): the `dec_addr` wires when `dec_addr_valid = 0`. -/
opaque Config.freeAddrWire : Byte → BitVec 6

end Sys2Proof
end

