-- ==== Sys2Proof/WellFormed.lean ====
section
/-! DEFINITION. The codec's contract on its operand fields (R48, R55): which fields an opcode has, and their
ranges. `Instr` has bounded operands, so every `Instr` meets it (D11); a `FieldSet` need not. -/

namespace Sys2Proof

/-- The ways a field set breaks the codec's contract. -/
inductive FieldProblem where
  /-- A field the opcode has is absent (R48). -/
  | missing
  /-- A field the opcode has not is present (R48: "leaving the others unpopulated"). -/
  | extra
  /-- "registers outside 0–3" (R55). -/
  | registerRange
  /-- "addresses outside 0–63" (R55). -/
  | addressRange
deriving DecidableEq, Repr

/-- Checks one applicable field against its bound, `e` naming the range it leaves. -/
def checkField (bound : Nat) (e : FieldProblem) : Option Nat → Option FieldProblem
  | none => some .missing
  | some v => if v < bound then none else some e

/-- Checks that an inapplicable field is absent. -/
def checkAbsent : Option Nat → Option FieldProblem
  | none => none
  | some _ => some .extra

/-- The first breach of the codec's contract, if any (R48, R55). -/
def FieldSet.check (f : FieldSet) : Option FieldProblem :=
  match f.op with
  | .add | .and =>
    checkField 4 .registerRange f.rn <|> checkField 4 .registerRange f.rm <|>
      checkField 4 .registerRange f.rd <|> checkAbsent f.addr
  | .not =>
    checkField 4 .registerRange f.rn <|> checkField 4 .registerRange f.rd <|>
      checkAbsent f.rm <|> checkAbsent f.addr
  | .bnz =>
    checkField 64 .addressRange f.addr <|> checkAbsent f.rn <|> checkAbsent f.rm <|> checkAbsent f.rd

/-- The field set meets the codec's contract. -/
def FieldSet.wellFormed (f : FieldSet) : Bool :=
  f.check = none

/-- The field set of a decoded instruction: exactly the fields valid for its opcode (R48). -/
def Instr.fields : Instr → FieldSet
  | .add rd rn rm => ⟨.add, some rn.index, some rm.index, some rd.index, none⟩
  | .and rd rn rm => ⟨.and, some rn.index, some rm.index, some rd.index, none⟩
  | .not rd rn => ⟨.not, some rn.index, none, some rd.index, none⟩
  | .bnz addr => ⟨.bnz, none, none, none, some addr.toNat⟩

/-- Well-formedness of an instruction is that of its fields (D11: bounded operand types make it hold of all). -/
def Instr.wellFormed (i : Instr) : Bool :=
  i.fields.wellFormed

end Sys2Proof
end

