-- ==== Sys2Proof/Decode.lean ====
section
/-! DEFINITION. The instruction codec (R45 to R56): `decode`, total on any bytes and rejecting by name, and after
it `encode`, both written from the bit layout of R46 and R47. -/

namespace Sys2Proof

/-! ## Fields of a byte (R46, R47) -/

/-- `op = b[7:6]` (R46, R49). -/
def opField (b : Byte) : BitVec 2 := b.extractLsb' 6 2

/-- `rn = b[5:4]`, source-1 (R46). -/
def rnField (b : Byte) : BitVec 2 := b.extractLsb' 4 2

/-- `rm = b[3:2]`, source-2; reserved in a NOT (R46). -/
def rmField (b : Byte) : BitVec 2 := b.extractLsb' 2 2

/-- `rd = b[1:0]`, destination (R46). -/
def rdField (b : Byte) : BitVec 2 := b.extractLsb' 0 2

/-- `addr = b[5:0]`, unsigned, unscaled, absolute (R47, R54). -/
def addrField (b : Byte) : Addr := b.extractLsb' 0 6

/-- The opcode values 00, 01, 10, 11 (R45, R49). -/
def Opcode.ofBits (v : BitVec 2) : Opcode :=
  match v.toFin with
  | 0 => .add
  | 1 => .and
  | 2 => .not
  | 3 => .bnz

/-- The two bits of an opcode (R45, R49). -/
def Opcode.bits : Opcode → BitVec 2
  | .add => 0b00#2
  | .and => 0b01#2
  | .not => 0b10#2
  | .bnz => 0b11#2

/-- A register field is the unsigned index of a register (R46, R54). -/
def Reg.ofBits (v : BitVec 2) : Reg :=
  match v.toFin with
  | 0 => .r0
  | 1 => .r1
  | 2 => .r2
  | 3 => .r3

/-- The two bits that name a register (R46). -/
def Reg.bits : Reg → BitVec 2
  | .r0 => 0b00#2
  | .r1 => 0b01#2
  | .r2 => 0b10#2
  | .r3 => 0b11#2

/-! ## Decode -/

/-- `Decode : byte -> Instr`, total (R51). Bits 3 and 2 of a NOT are not delivered (R53). -/
def decodeByte (b : Byte) : Instr :=
  match Opcode.ofBits (opField b) with
  | .add => .add (Reg.ofBits (rdField b)) (Reg.ofBits (rnField b)) (Reg.ofBits (rmField b))
  | .and => .and (Reg.ofBits (rdField b)) (Reg.ofBits (rnField b)) (Reg.ofBits (rmField b))
  | .not => .not (Reg.ofBits (rdField b)) (Reg.ofBits (rnField b))
  | .bnz => .bnz (addrField b)

/-- Why bytes are no instruction. -/
inductive DecodeReject where
  /-- There is no byte to decode. -/
  | noByte
  /-- A NOT byte with non-zero bits 3 and 2, only under `NOT_RM_NONZERO = fault` (U1). -/
  | notReservedBits (b : Byte)
deriving DecidableEq, Repr

/-- A NOT byte whose reserved bits 3 and 2 are not zero: the 48 bytes of U1. -/
def notReserved (b : Byte) : Bool :=
  opField b = Opcode.bits .not && rmField b ≠ 0

/-- Decoding under either value of the open parameter `NOT_RM_NONZERO` (D4, U1). -/
def decodeAs (p : NotRmNonzero) (b : Byte) : Except DecodeReject Instr :=
  match p with
  | .ignore => .ok (decodeByte b)
  | .fault => if notReserved b then .error (.notReservedBits b) else .ok (decodeByte b)

/-- The default of `NOT_RM_NONZERO` is `ignore` (D4; log 1). -/
def defaultNotRm : NotRmNonzero := .ignore

/-- Decoding the first instruction of a byte stream: one byte each (R45), the rest is returned. -/
def decode (p : NotRmNonzero) : List Byte → Except DecodeReject (Instr × List Byte)
  | [] => .error .noByte
  | b :: rest =>
    match decodeAs p b with
    | .ok i => .ok (i, rest)
    | .error e => .error e

/-- The bytes of an opcode-table row's word: one byte, the bits above `nbits` zero (R45). -/
def tableByte (nbits w : Nat) : Byte := BitVec.ofNat 8 (w % 2 ^ nbits)

/-- The instruction the decoder reads from a word numbered as spec/opcode_table.json numbers it. -/
def decodeTableWord (nbits w : Nat) : Option Instr :=
  match decode defaultNotRm [tableByte nbits w] with
  | .ok (i, _) => some i
  | .error _ => none

/-! ## Encode -/

/-- Format R, `{op, rn, rm, rd}` (R46). -/
def packR (op rn rm rd : BitVec 2) : Byte := op ++ rn ++ rm ++ rd

/-- Format B, `{0b11, addr}` (R47). -/
def packB (addr : Addr) : Byte := Opcode.bits .bnz ++ addr

/-- `Encode : Instr -> byte` (R50); the reserved field of a NOT is written 0b00. -/
def encode : Instr → Byte
  | .add rd rn rm => packR (Opcode.bits .add) rn.bits rm.bits rd.bits
  | .and rd rn rm => packR (Opcode.bits .and) rn.bits rm.bits rd.bits
  | .not rd rn => packR (Opcode.bits .not) rn.bits 0b00#2 rd.bits
  | .bnz addr => packB addr

/-- The register of an index below 4; R55 gives no meaning to another index. -/
def Reg.ofIndex (n : Nat) : Reg := Reg.ofBits (BitVec.ofNat 2 n)

/-- The instruction a contract-keeping field set stands for; a breach of the contract is refused by name and never
masked (R48, R55, U2). -/
def FieldSet.toInstr (f : FieldSet) : Except FieldProblem Instr :=
  match f.check with
  | some e => .error e
  | none =>
    let reg (o : Option Nat) : Reg := Reg.ofIndex (o.getD 0)
    match f.op with
    | .add => .ok (.add (reg f.rd) (reg f.rn) (reg f.rm))
    | .and => .ok (.and (reg f.rd) (reg f.rn) (reg f.rm))
    | .not => .ok (.not (reg f.rd) (reg f.rn))
    | .bnz => .ok (.bnz (BitVec.ofNat 6 (f.addr.getD 0)))

/-- The field packer on what a caller presents: `Encode` where the contract holds, else refused (R50, R55). -/
def encodeFields (f : FieldSet) : Except FieldProblem Byte :=
  match f.toInstr with
  | .ok i => .ok (encode i)
  | .error e => .error e

end Sys2Proof
end

