-- ==== Sys2Proof/Machine/State.lean ====
section
/-! DEFINITION. The state of the FISC core as plain data, its faults and refusals, and the state after reset. -/

namespace Sys2Proof.Machine

/-- The general registers (R10): four, 8 bits each, all equal in every respect (R11). -/
structure Regs where
  x0 : Byte
  x1 : Byte
  x2 : Byte
  x3 : Byte
deriving DecidableEq, Repr

/-- The run status (R25). -/
inductive Status where
  /-- No run in progress, machine fresh. -/
  | idle
  /-- A run is in progress. -/
  | running
  /-- The budget is exhausted; terminal. -/
  | done
  /-- `ProgramOverrun` was raised; terminal. -/
  | overrun
deriving DecidableEq, Repr

/-- The program store: slots and their bytes, addresses strictly rising; a slot not listed holds no value
(R32, R34, U4; log 3). -/
abbrev Memory := List Host.Cell

/-- One observation (R96, R101): the step index, the state after the step, the instruction the step executed, and
its disassembly where the run asked for it (R64, R102). -/
structure Obs where
  index  : Nat
  pc     : Addr
  z      : Bool
  regs   : Regs
  instr  : Instr
  disasm : Option Text
deriving DecidableEq, Repr

/-- The state of the core: the machine state (R10, R13, R17), the engine's bookkeeping (R24, R25), the program and
the run parameters, which no step changes (R26), and the observations the run has emitted (R101). -/
structure State where
  /-- `x[0]` to `x[3]` (R10). -/
  regs    : Regs
  /-- The zero flag `Z` (R17). -/
  z       : Bool
  /-- The program counter (R13); 63 only inside a step (R15). -/
  pc      : Addr
  /-- The count of executed steps (R24), unbounded (D8). -/
  cyc     : Nat
  /-- The run status (R25). -/
  status  : Status
  /-- The program store (R30, R32). -/
  store   : Memory
  /-- `N`, the loaded instruction count (R5, R26). -/
  progLen : Nat
  /-- `BUDGET` (R26, R98). -/
  budget  : Nat
  /-- `DISASM` (R26, R102). -/
  disasm  : Bool
  /-- The observations of the run, oldest first (R101); an output, never read back (R102). -/
  obs     : List Obs
deriving DecidableEq, Repr

/-- Why the machine stops with a fault. -/
inductive Fault where
  /-- `ProgramOverrun(pc, N)` (R110), raised by the engine when a step is about to begin with `pc >= N`, and again
  by every clock after it (R112). Safe: the spec has the run fail here. -/
  | programOverrun (pc : Addr) (n : Nat)
  /-- A NOT byte with non-zero bits 3 and 2 was fetched, raised by the engine only under the alternative parameter
  `NOT_RM_NONZERO = fault` (U1). Safe: it stops where the default goes on. -/
  | reservedNotBits (b : Byte)
deriving DecidableEq, Repr

/-- Why the model gives an action no meaning. -/
inductive Refusal where
  /-- An instruction with no meaning yet, raised by `exec`'s arms. Safe. -/
  | notModelled (mnemonic : String)
  /-- A step that begins with `pc = 63`, raised by `stepOnce` and by the meanings (R15, D10, U3). Safe. -/
  | stepFrom63
  /-- A fetch of a slot below N that the host never loaded, against R135, raised by `stepOnce` (U4). Safe. -/
  | slotNotLoaded (addr : Addr)
  /-- A host port used while the engine is not Idle, raised by the ports (R28, R29, D16, D19). Safe. -/
  | portClosed (status : Status)
  /-- A program length above 64 presented to `prog_len`, raised by the ports (R28, D5). Safe. -/
  | lengthOutOfRange (n : Nat)
deriving DecidableEq, Repr

/-- The state after reset (R130, R131). The program store is the host's: right after power-on nothing is loaded
(log 3) and N, BUDGET and DISASM hold the values log 4 names. -/
def State.reset : State where
  regs := ⟨0x00#8, 0x00#8, 0x00#8, 0x00#8⟩
  z := false
  pc := 0#6
  cyc := 0
  status := .idle
  store := []
  progLen := 0
  budget := defaultBudget
  disasm := false
  obs := []

end Sys2Proof.Machine
end

