-- ==== Sys2Proof/Machine/Ops.lean ====
section
/-! DEFINITION. The operations over the program store, the registers and the program counter that every meaning
and the engine share, and the one exception of the engine. -/

namespace Sys2Proof.Machine

/-! ## The program store (R30 to R34) -/

/-- `MemRead(addr, 1)`: the byte of a slot, or no value where nothing was loaded (R33, R34, U4). -/
def Memory.read : Memory → Nat → Option Byte
  | [], _ => none
  | (a, v) :: m, k => if k = a then some v else Memory.read m k

/-- Loading one slot, keeping the addresses strictly rising. Only the host's load port uses it: `MemWrite` is used
by no instruction (R31). -/
def Memory.write : Memory → Nat → Byte → Memory
  | [], k, b => [(k, b)]
  | (a, v) :: m, k, b =>
    if k < a then (k, b) :: (a, v) :: m
    else if k = a then (a, b) :: m
    else (a, v) :: Memory.write m k b

/-- The addresses rise strictly, none is below `lo`, and each is a slot (R32). -/
def Memory.risesFrom : Nat → Memory → Bool
  | _, [] => true
  | lo, (a, _) :: m => lo ≤ a && a < progSlots && Memory.risesFrom (a + 1) m

/-- The canonical form of the program store: strictly rising slots 0 to 63. An unlisted slot reads as no value, so
no listed byte can equal it (log 3). -/
def Memory.wf (m : Memory) : Bool := Memory.risesFrom 0 m

/-- Loading an image, byte k of the list into slot `base + k` (R32, R135). -/
def Memory.load (m : Memory) (base : Nat) : List Byte → Memory
  | [] => m
  | b :: bs => Memory.load (m.write base b) (base + 1) bs

/-! ## Registers (R10 to R12) -/

/-- `x[i]`. -/
def Regs.get (r : Regs) : Reg → Byte
  | .r0 => r.x0
  | .r1 => r.x1
  | .r2 => r.x2
  | .r3 => r.x3

/-- `x[i] <- v`; no register is hard-wired (R11). -/
def Regs.set (r : Regs) (i : Reg) (v : Byte) : Regs :=
  match i with
  | .r0 => { r with x0 := v }
  | .r1 => { r with x1 := v }
  | .r2 => { r with x2 := v }
  | .r3 => { r with x3 := v }

/-- Reading a general register. -/
def State.reg (s : State) (i : Reg) : Byte := s.regs.get i

/-- Writing a general register. -/
def State.setReg (s : State) (i : Reg) (v : Byte) : State := { s with regs := s.regs.set i v }

/-- `Z <- v`. -/
def State.setZ (s : State) (v : Bool) : State := { s with z := v }

/-- `pc <- target`. -/
def State.setPc (s : State) (a : Addr) : State := { s with pc := a }

/-! ## The program counter (R13 to R16, R97) -/

/-- PC_WRAP: the pc value that is forced to 0 after a step (R5, R97). -/
def pcWrap : Addr := 63#6

/-- `pc <- pc + 1` (R14). From `pc ≤ 62` it is at most 63 and never wraps (R15). -/
def State.advance (s : State) : State := s.setPc (s.pc + 1#6)

/-- The post-step wraparound: `if pc == 63 then pc <- 0` (R97). It changes `pc` only. -/
def State.wrapPc (s : State) : State := if s.pc = pcWrap then s.setPc 0#6 else s

/-- The precondition of an instruction, `0 ≤ pc ≤ 62` (R15, R96): from `pc = 63` a step has no meaning and is
refused, not given `pc + 1 = 0` or 64 (D10, U3; log 5). -/
def State.withinStep (s : State) (k : State → State) : Host.Outcome State Fault Refusal :=
  if s.pc = pcWrap then .refused .stepFrom63 else .next (k s)

/-! ## The engine's exception (R110 to R112) -/

/-- Taking `ProgramOverrun`: the failing step "only sets `status <- Overrun`" and changes nothing else (R111). No
pc or status is saved and control goes nowhere (R118), so there is no return from it (R119): only reset leaves it. -/
def State.raiseOverrun (s : State) : State := { s with status := .overrun }

/-- The fault a step reports when it takes the exception: the current `pc` and `N`, named for a message (R110). -/
def State.overrunFault (s : State) : Fault := .programOverrun s.pc s.progLen

/-! ## The fresh machine (R130, R131) -/

/-- The fresh machine on what is not reset (the program store, N, BUDGET and DISASM, R131): registers 0, `Z = 0`,
`pc = 0`, `cyc = 0`, no observation, Idle. -/
def State.fresh (s : State) : State :=
  { State.reset with store := s.store, progLen := s.progLen, budget := s.budget, disasm := s.disasm }

end Sys2Proof.Machine
end

