-- ==== Sys2Proof/Machine/Flags.lean ====
section
/-! DEFINITION. The one flag computation (R17, R18, R80 (d)). There is no carry, overflow or sign flag (R19). -/

namespace Sys2Proof.Machine

/-- The zero flag of a result: 1 iff the value is exactly 0 (R80 (d)); nothing else is tested (R85). -/
def zeroFlag (v : Byte) : Bool := v = 0x00#8

/-- BNZ is taken iff the flag is currently 0, and on nothing else (R90, C7). -/
def branchTaken (z : Bool) : Bool := z = false

end Sys2Proof.Machine
end

