-- ==== Sys2Proof/Machine/Operands.lean ====
section
/-! DEFINITION. The operand forms (R54): a register operand, and the BNZ target. No other form exists. -/

namespace Sys2Proof.Machine

/-- The value of a source register, from the state before the step (R54, R80): no offset, scaling or indirection. -/
def State.source (s : State) (i : Reg) : Byte := s.reg i

/-- The address a BNZ operand names: absolute, unsigned, unscaled, not relative to `pc` (R54, R90). -/
def branchTarget (addr : Addr) : Addr := addr

end Sys2Proof.Machine
end

