-- ==== Sys2Proof/Machine/Alu.lean ====
section
/-! DEFINITION. The meanings of ADD, AND and NOT (R80 to R83). -/

namespace Sys2Proof.Machine

/-- What the three share (R80): `x[rd] <- v`, `Z` from `v`, `pc <- pc + 1`, nothing else. `v` is computed by the
caller from the state before the step, so a destination may also be a source (R80 (a), R138). -/
def State.writeResult (s : State) (rd : Reg) (v : Byte) : Host.Outcome State Fault Refusal :=
  s.withinStep fun s => ((s.setReg rd v).setZ (zeroFlag v)).advance

/-- `rd ← rn + rm (mod 256)`; the carry out of bit 7 is discarded (R81, R84). -/
def execAdd (rd rn rm : Reg) (s : State) : Host.Outcome State Fault Refusal :=
  s.writeResult rd (s.source rn + s.source rm)

/-- `rd ← rn bitwise-and rm` (R82). -/
def execAnd (rd rn rm : Reg) (s : State) : Host.Outcome State Fault Refusal :=
  s.writeResult rd (s.source rn &&& s.source rm)

/-- `rd ← bitwise complement of rn`, that is 255 - `x[rn]` (R83). -/
def execNot (rd rn : Reg) (s : State) : Host.Outcome State Fault Refusal :=
  s.writeResult rd (~~~ s.source rn)

end Sys2Proof.Machine
end

