-- ==== Sys2Proof/Machine/Branch.lean ====
section
/-! DEFINITION. The meaning of BNZ (R90 to R94). -/

namespace Sys2Proof.Machine

/-- `if Z == 0 then pc <- addr else pc <- pc + 1`; no flag and no register changes (R90). -/
def execBnz (addr : Addr) (s : State) : Host.Outcome State Fault Refusal :=
  s.withinStep fun s => if branchTaken s.z then s.setPc (branchTarget addr) else s.advance

end Sys2Proof.Machine
end

