-- ==== Sys2Proof/Machine/Rendering.lean ====
section
/-! DEFINITION. The text forms of numbers and instructions: two-digit hexadecimal (R37), decimal (R103), and the
disassembly of a decoded instruction (R64, D15). -/

namespace Sys2Proof.Machine

/-- The sixteen digits, upper case (R66). -/
def hexDigits : Text := ['0', '1', '2', '3', '4', '5', '6', '7', '8', '9', 'A', 'B', 'C', 'D', 'E', 'F']

/-- The digit of a value below 16. -/
def hexDigit (n : Nat) : Char := hexDigits.getD n '0'

/-- "exactly two uppercase hexadecimal digits": the first is bits 7 to 4 (R37, R66, G1; log 12). -/
def hex2 (b : Byte) : Text := [hexDigit (b.toNat / 16), hexDigit (b.toNat % 16)]

/-- Decimal digits of `n` before `acc`, on fuel; a number below `10 ^ fuel` is written whole. -/
def decimalDigits : Nat → Nat → Text → Text
  | 0, _, acc => acc
  | fuel + 1, n, acc =>
    if n < 10 then hexDigit n :: acc else decimalDigits fuel (n / 10) (hexDigit (n % 10) :: acc)

/-- A number in decimal without padding (R103, D15). -/
def decimal (n : Nat) : Text := decimalDigits (n + 1) n []

/-- The mnemonics, in the lower case of R58 and D15. -/
def mnemonicText : Opcode → Text
  | .add => ['a', 'd', 'd']
  | .and => ['a', 'n', 'd']
  | .not => ['n', 'o', 't']
  | .bnz => ['b', 'n', 'z']

/-- The register tokens `r0` to `r3` (R59). -/
def regText : Reg → Text
  | .r0 => ['r', '0']
  | .r1 => ['r', '1']
  | .r2 => ['r', '2']
  | .r3 => ['r', '3']

/-- The operand texts of an instruction, destination first (R60, R64). -/
def operandTexts : Instr → List Text
  | .add rd rn rm => [regText rd, regText rn, regText rm]
  | .and rd rn rm => [regText rd, regText rn, regText rm]
  | .not rd rn => [regText rd, regText rn]
  | .bnz addr => [decimal addr.toNat]

/-- The disassembly of a decoded instruction: mnemonic and operands, one space between (R64, D15; log 12). -/
def disassemble (i : Instr) : Text :=
  mnemonicText i.opcode ++ (operandTexts i).flatMap fun t => ' ' :: t

end Sys2Proof.Machine
end

