-- ==== Sys2Proof/Machine/Engine.lean ====
section
/-! DEFINITION. The execution engine (R95 to R102): fetch, one step, the observation, and one clock of the engine
with the tests at a step boundary (R117). -/

namespace Sys2Proof.Machine

/-- The default values of the open parameters: `NOT_RM_NONZERO = ignore` (D4; log 1), `OBS_INDEX_BASE = 1` (D9;
log 6). -/
def params : Params := ⟨defaultNotRm, 1⟩

/-- The instruction fetch: one byte at `pc`, without side effect (R33, R39). -/
def State.fetch (s : State) : Option Byte := s.store.read s.pc.toNat

/-- The observation of a step: the state after the wraparound, with the step's instruction, and its disassembly
where `DISASM` is on (R101, R102). `s` is that state before `cyc` counts the step; the k-th executed step has index
`OBS_INDEX_BASE + k - 1` (D9). -/
def State.observe (c : Params) (i : Instr) (s : State) : Obs where
  index := c.obsIndexBase + s.cyc
  pc := s.pc
  z := s.z
  regs := s.regs
  instr := i
  disasm := if s.disasm then some (disassemble i) else none

/-- The texts of an observation's fields, in order: cycle number in decimal, pc in two hexadecimal digits, zero flag,
R0 to R3 in two hexadecimal digits, then the disassembly where there is one (R103, informative). The separators are
not in the spec (N7). -/
def Obs.fieldTexts (o : Obs) : List Text :=
  [decimal o.index, hex2 (o.pc.setWidth 8), [if o.z then '1' else '0'],
    hex2 o.regs.x0, hex2 o.regs.x1, hex2 o.regs.x2, hex2 o.regs.x3] ++ o.disasm.toList

/-- Statement (5) of the step: `cyc <- cyc + 1` and the observation is emitted (R96, R101). -/
def State.retire (c : Params) (i : Instr) (s : State) : State :=
  { s with cyc := s.cyc + 1, obs := s.obs ++ [s.observe c i] }

/-- What follows the instruction in a step: the wraparound, then the bookkeeping (R96 (4), (5)). -/
def State.finishStep (c : Params) (i : Instr) (s : State) : State := s.wrapPc.retire c i

/-- Statement (3) to (5) of the step for an instruction already decoded (R96). -/
def runInstr (c : Params) (i : Instr) (s : State) : Host.Outcome State Fault Refusal :=
  match exec i s with
  | .next t => .next (t.finishStep c i)
  | .fault r => .fault r
  | .refused r => .refused r

/-- `Step()` of R96: the overrun check before anything else, fetch, decode, execute, wraparound, observation. Its
precondition `pc ≤ 62` is checked first: a step from `pc = 63` is refused (D10, U3). -/
def stepOnce (c : Params) (s : State) : Host.Outcome State Fault Refusal :=
  if s.pc = pcWrap then .refused .stepFrom63
  else if s.progLen ≤ s.pc.toNat then .fault s.overrunFault
  else
    match s.fetch with
    | none => .refused (.slotNotLoaded s.pc)
    | some b =>
      match decodeAs c.notRm b with
      | .error _ => .fault (.reservedNotBits b)
      | .ok i => runInstr c i s

/-- One clock of the engine, at a step boundary (R28, R98, R117): in a run, the budget test first, which ends the
run `Done`, then a step. In Idle and Done nothing happens (log 2); in Overrun the run has failed and every further
clock reports it (R112, U5). -/
def engineStep (c : Params) (s : State) : Host.Outcome State Fault Refusal :=
  match s.status with
  | .idle => .next s
  | .done => .next s
  | .overrun => .fault s.overrunFault
  | .running => if s.budget ≤ s.cyc then .next { s with status := .done } else stepOnce c s

/-- The state a clock of the engine leaves, with `status <- Overrun` where the step fails so (R111); where the model
gives no meaning, or under the fault of U1, the state stays. -/
def tick (c : Params) (s : State) : State :=
  match engineStep c s with
  | .next t => t
  | .fault (.programOverrun _ _) => s.raiseOverrun
  | .fault (.reservedNotBits _) => s
  | .refused _ => s

end Sys2Proof.Machine
end

