-- ==== Sys2Proof/Machine/Ports.lean ====
section
/-! DEFINITION. The block interfaces (R27, R28): the codec's ports, the engine's outputs, and what the host may do
(R29, R133, R135, D16, D19). -/

namespace Sys2Proof.Machine

/-! ## Codec ports (R27) -/

/-- The packer's inputs. The widths make an out-of-range operand unrepresentable (R27, D11). -/
structure PackIn where
  op   : BitVec 2
  rn   : BitVec 2
  rm   : BitVec 2
  rd   : BitVec 2
  addr : BitVec 6
deriving DecidableEq, Repr

/-- `enc_byte`: inputs the opcode does not have are ignored (R27). -/
def pack (p : PackIn) : Byte :=
  match Opcode.ofBits p.op with
  | .add => packR p.op p.rn p.rm p.rd
  | .and => packR p.op p.rn p.rm p.rd
  | .not => packR p.op p.rn 0b00#2 p.rd
  | .bnz => packB p.addr

/-- The unpacker's outputs, three validity bits among them (R27). -/
structure UnpackOut where
  op        : BitVec 2
  rn        : BitVec 2
  rm        : BitVec 2
  rd        : BitVec 2
  addr      : BitVec 6
  rnRdValid : Bool
  rmValid   : Bool
  addrValid : Bool
deriving DecidableEq, Repr

/-- The unpacker. The data wires of a field whose validity bit is 0 carry free values (D12; log 9). -/
def unpack (b : Byte) : UnpackOut :=
  match Opcode.ofBits (opField b) with
  | .add => ⟨opField b, rnField b, rmField b, rdField b, Config.freeAddrWire b, true, true, false⟩
  | .and => ⟨opField b, rnField b, rmField b, rdField b, Config.freeAddrWire b, true, true, false⟩
  | .not => ⟨opField b, rnField b, Config.freeRmWire b, rdField b, Config.freeAddrWire b, true, false, false⟩
  | .bnz =>
    ⟨opField b, Config.freeRnWire b, Config.freeRmWire b, Config.freeRdWire b, addrField b, false, false, true⟩

/-- The unpacker's data wires given to a packer. -/
def UnpackOut.toPackIn (u : UnpackOut) : PackIn := ⟨u.op, u.rn, u.rm, u.rd, u.addr⟩

/-! ## Engine outputs (R28) -/

/-- The numeric encoding of `status` on its port (R114, D18). -/
def Status.code : Status → BitVec 2
  | .idle => 0#2
  | .running => 1#2
  | .done => 2#2
  | .overrun => 3#2

/-- The engine's output ports. `obs_valid` is `obsInstr.isSome`: high for a clock in which a step completes. -/
structure EngineOut where
  pc       : Addr
  z        : Bool
  r0       : Byte
  r1       : Byte
  r2       : Byte
  r3       : Byte
  cyc      : Nat
  status   : BitVec 2
  obsInstr : Option Instr
deriving DecidableEq, Repr

/-- The instruction of the step that completes in the clock beginning at `s`, if one does (R28 `obs_instr`): the
instruction of the observation that clock emits. -/
def completedInstr (c : Params) (s : State) : Option Instr :=
  match s.status, stepOnce c s with
  | .running, .next t => if s.budget ≤ s.cyc then none else (t.obs.getLast?).map Obs.instr
  | _, _ => none

/-- The outputs of the clock that begins at `s`: the state it leaves, and the step it completes (R28). -/
def engineOut (c : Params) (s : State) : EngineOut :=
  let t := tick c s
  { pc := t.pc, z := t.z, r0 := t.reg .r0, r1 := t.reg .r1, r2 := t.reg .r2, r3 := t.reg .r3,
    cyc := t.cyc, status := t.status.code, obsInstr := completedInstr c s }

/-- `obs_valid` (R28). -/
def EngineOut.obsValid (o : EngineOut) : Bool := o.obsInstr.isSome

/-! ## What the host may do (R28, R29) -/

/-- One action of the host on the engine's inputs (R28). -/
inductive HostAction where
  /-- `rst` (R133). -/
  | reset
  /-- `ld_we` with `ld_addr` and `ld_data`. -/
  | load (addr : Addr) (data : Byte)
  /-- `prog_len` = N. -/
  | setLength (n : Nat)
  /-- `start`, sampling `budget` (20 where the caller gives none, R99) and `disasm_en`. -/
  | start (budget : Option Nat) (disasm : Bool)
deriving DecidableEq, Repr

/-- Begins a run: the fresh machine, Running, with the budget and toggle sampled (R28, R98, R99). -/
def State.begin (s : State) (budget : Option Nat) (disasm : Bool) : State :=
  { s.fresh with status := .running, budget := budget.getD defaultBudget, disasm := disasm }

/-- A host action. `rst` acts from any state (R133); the others only in Idle (R28, R29, D16, D19), and N is at most
64 (R28, D5); anything else is refused (log 8). -/
def hostAct (a : HostAction) (s : State) : Host.Outcome State Fault Refusal :=
  match a with
  | .reset => .next s.fresh
  | .load addr data =>
    if s.status = .idle then .next { s with store := s.store.write addr.toNat data }
    else .refused (.portClosed s.status)
  | .setLength n =>
    if s.status ≠ .idle then .refused (.portClosed s.status)
    else if n ≤ progSlots then .next { s with progLen := n }
    else .refused (.lengthOutOfRange n)
  | .start budget disasm =>
    if s.status = .idle then .next (s.begin budget disasm) else .refused (.portClosed s.status)

end Sys2Proof.Machine
end

