-- ==== Sys2Proof/Machine/Run.lean ====
section
/-! DEFINITION. The step-bounded run loop (R98, R99), from a program image to the end of the run (R9). -/

namespace Sys2Proof.Machine

/-- How a run ends (R9): `Done` or `Overrun`, with the end state. The other two are the model's own: the fault of
U1's alternative, and a refusal, with the state the run stopped in. -/
inductive RunEnd where
  | done (s : State)
  | overrun (s : State)
  | faulted (r : Fault) (s : State)
  | refused (r : Refusal) (s : State)
deriving DecidableEq, Repr

/-- The state a run stopped in. -/
def RunEnd.state : RunEnd → State
  | .done s => s
  | .overrun s => s
  | .faulted _ s => s
  | .refused _ s => s

/-- `repeat k times: Step()`, then `status <- Done`; the first failing step ends the loop (R98). The budget is
tested first: after the last step no overrun check is made. -/
def runLoop (c : Params) : Nat → State → RunEnd
  | 0, s => .done { s with status := .done }
  | k + 1, s =>
    match stepOnce c s with
    | .next t => runLoop c k t
    | .fault (.programOverrun _ _) => .overrun s.raiseOverrun
    | .fault r => .faulted r s
    | .refused r => .refused r s

/-- The host's load of an image (R135): byte k into slot k, N the number of bytes; an image of more than 64 bytes is
cut to its first 64 (D5). -/
def State.loadImage (s : State) (image : List Byte) : State :=
  { s with store := s.store.load 0 (image.take progSlots), progLen := (image.take progSlots).length }

/-- The state in which a run begins: the image loaded into the machine after reset, then `start` (R98, R135). -/
def bootState (image : List Byte) (budget : Option Nat) (disasm : Bool) : State :=
  (State.reset.loadImage image).begin budget disasm

/-- `Run(Prog, N, BUDGET)` (R98). -/
def run (c : Params) (image : List Byte) (budget : Option Nat) (disasm : Bool) : RunEnd :=
  runLoop c (budget.getD defaultBudget) (bootState image budget disasm)

end Sys2Proof.Machine
end

