-- ==== Sys2Proof/Machine/Step.lean ====
section
/-! DEFINITION. The machine's step under the default parameters, and a state that fetches a given word next. -/

namespace Sys2Proof.Machine

/-- One clock of the core (R28, R96, R117). -/
def step (s : State) : Host.Outcome State Fault Refusal := engineStep params s

/-- `s` with the word's byte in the slot `pc` names, a program that reaches it, and a run in progress with budget
left: all that the very next step needs to fetch and run it (R28, R135; log 8). -/
def State.withFetchWord (s : State) (nbits w : Nat) : State :=
  { s with
    store := s.store.write s.pc.toNat (tableByte nbits w)
    progLen := max s.progLen (s.pc.toNat + 1)
    status := .running
    budget := max s.budget (s.cyc + 1) }

end Sys2Proof.Machine
end

