-- ==== Sys2Proof/Machine/ObjectFile.lean ====
section
/-! DEFINITION. The object file and its loader (R66, R67), and the ways the surrounding tools stop (R115, U6 to
U11). Software around the hardware (R4), recorded by the spec and modelled on lines of characters. -/

namespace Sys2Proof.Machine

/-- How a tool stops. The first four are the spec's error kinds (R115); the others are the model's refusals of what
the spec leaves without a meaning (U7, U10, U11; log 11). -/
inductive ToolStop where
  /-- Missing or mismatched marker line, or a line that is not a hexadecimal byte (R67, C5, U6). -/
  | badFormat
  /-- The same label bound twice in Pass 1 (R61). -/
  | duplicateLabel (name : Text)
  /-- A branch operand not found in the Label Table (R61, R63). -/
  | unknownLabel (name : Text)
  /-- A token that is no mnemonic or register where one is required (R58, R59, U8). -/
  | invalidMnemonicOrRegister (token : Text)
  /-- REFUSED: too few or too many operand tokens (U10). -/
  | operandCount (mnemonic : Text)
  /-- REFUSED: a branch to a label bound above address 63 (U7). -/
  | targetAbove63 (addr : Nat)
  /-- REFUSED: a label with no instruction after it (U11, N12). -/
  | labelWithoutInstruction (name : Text)
  /-- REFUSED: a label that matches only after normalisation, or an empty one (U11, N13). -/
  | labelText (name : Text)
  /-- REFUSED: an address that does not fit the two digits of a listing (R68). -/
  | listingAddress (addr : Nat)
deriving DecidableEq, Repr

/-- The marker line `v2.0 raw` (R66). -/
def objectMarker : Text := ['v', '2', '.', '0', ' ', 'r', 'a', 'w']

/-- The value of an upper-case hexadecimal digit. -/
def hexValue (c : Char) : Option Nat := hexDigits.findIdx? (· = c)

/-- A line of exactly two upper-case hexadecimal digits, the first bits 7 to 4 (R37, R66, U6). -/
def parseHexByte : Text → Except ToolStop Byte
  | [h, l] =>
    match hexValue h, hexValue l with
    | some hi, some lo => .ok (BitVec.ofNat 8 (16 * hi + lo))
    | _, _ => .error .badFormat
  | _ => .error .badFormat

/-- The object file of a program: the marker, then one line a byte in address order (R66). -/
def objectFile (prog : List Byte) : List Text := objectMarker :: prog.map hex2

/-- The lines after the marker, each one byte (R67). -/
def parseHexBytes : List Text → Except ToolStop (List Byte)
  | [] => .ok []
  | l :: ls =>
    match parseHexByte l with
    | .error e => .error e
    | .ok b =>
      match parseHexBytes ls with
      | .error e => .error e
      | .ok bs => .ok (b :: bs)

/-- The loader: checks the marker, then parses every remaining line (R67). -/
def loadObject : List Text → Except ToolStop (List Byte)
  | [] => .error .badFormat
  | m :: ls => if m = objectMarker then parseHexBytes ls else .error .badFormat

/-- The document's load-time "Decoder": the loaded bytes decoded, in address order (R67). -/
def loadDecoded (ls : List Text) : Except ToolStop (List Instr) :=
  match loadObject ls with
  | .ok bs => .ok (bs.map decodeByte)
  | .error e => .error e

end Sys2Proof.Machine
end

