-- ==== Sys2Proof/Machine/Assembler.lean ====
section
/-! DEFINITION. The two-pass assembler (R57 to R65) and its listing (R68). Software around the hardware (R4),
recorded by the spec because it fixes the operand order and what a label means. A source file is a list of lines. -/

namespace Sys2Proof.Machine

/-! ## Source lines (R57) -/

/-- Whitespace between tokens. -/
def isBlank (c : Char) : Bool := c = ' ' || c = '\t' || c = '\r' || c = '\n'

/-- The text before the first `d`, and the text after it where there is one. -/
def splitFirst (d : Char) : Text → Text × Option Text
  | [] => ([], none)
  | c :: cs => if c = d then ([], some cs) else (c :: (splitFirst d cs).1, (splitFirst d cs).2)

/-- Surrounding whitespace removed. -/
def trim (t : Text) : Text := ((t.dropWhile isBlank).reverse.dropWhile isBlank).reverse

/-- Whitespace-separated tokens; `cur` holds the token being read, reversed. -/
def tokensFrom (cur : Text) : Text → List Text
  | [] => if cur = [] then [] else [cur.reverse]
  | c :: cs =>
    if isBlank c then (if cur = [] then tokensFrom [] cs else cur.reverse :: tokensFrom [] cs)
    else tokensFrom (c :: cur) cs

/-- The tokens of an instruction text (R57). A comma is no separator (C1). -/
def tokens (t : Text) : List Text := tokensFrom [] t

/-- A source line taken apart: label untrimmed, instruction text trimmed (R57, R61). -/
structure SourceLine where
  label   : Option Text
  code    : Text
  comment : Option Text
deriving DecidableEq, Repr

/-- Comment first, then label, then trimming: "strictly before label-stripping" (R57). -/
def splitLine (src : Text) : SourceLine :=
  match splitFirst ':' (splitFirst ';' src).1 with
  | (code, none) => ⟨none, trim code, (splitFirst ';' src).2⟩
  | (label, some rest) => ⟨some label, trim rest, (splitFirst ';' src).2⟩

/-! ## The Label Table (R61) -/

/-- An ordered mapping from label name to address. -/
abbrev LabelTable := List (Text × Nat)

/-- The address of a name, by exact, case-sensitive comparison. -/
def LabelTable.find (t : LabelTable) (name : Text) : Option Nat :=
  (List.find? (fun e => e.1 = name) t).map Prod.snd

/-- `bind(name, address)`: fails on a name already bound (R61). An empty name is refused (U11). -/
def LabelTable.bind (t : LabelTable) (name : Text) (addr : Nat) : Except ToolStop LabelTable :=
  if name = [] then .error (.labelText name)
  else
    match t.find name with
    | some _ => .error (.duplicateLabel name)
    | none => .ok (t ++ [(name, addr)])

/-- `resolve(name) -> address`: fails on a name never bound (R61). Where only the trimmed text of a key equals the
name the spec says nothing: refused (U11, N13). -/
def LabelTable.resolve (t : LabelTable) (name : Text) : Except ToolStop Nat :=
  match t.find name with
  | some a => .ok a
  | none =>
    if List.any t (fun e => trim e.1 = name) then .error (.labelText name) else .error (.unknownLabel name)

/-! ## Pass 1, layout (R62) -/

/-- A Pass-1 record: the address of the line's instruction, or of the next one where the line has none. -/
structure LineRecord where
  addr : Nat
  line : SourceLine
deriving DecidableEq, Repr

/-- Binds a line's label, if it has one. -/
def bindLabel (t : LabelTable) (label : Option Text) (addr : Nat) : Except ToolStop LabelTable :=
  match label with
  | none => .ok t
  | some name => t.bind name addr

/-- Pass 1 from address `a`: only a line whose instruction text is non-empty takes an address (R62). -/
def layoutFrom (a : Nat) (t : LabelTable) : List Text → Except ToolStop (List LineRecord × LabelTable)
  | [] => .ok ([], t)
  | src :: rest =>
    match bindLabel t (splitLine src).label a with
    | .error e => .error e
    | .ok t' =>
      match layoutFrom (if (splitLine src).code = [] then a else a + 1) t' rest with
      | .error e => .error e
      | .ok (rs, tt) => .ok (⟨a, splitLine src⟩ :: rs, tt)

/-- The records that hold an instruction, in address order. -/
def instructionRecords (rs : List LineRecord) : List LineRecord :=
  rs.filter fun r => r.line.code ≠ []

/-- Pass 1. A label bound past the last instruction is refused (U11, N12). -/
def pass1 (src : List Text) : Except ToolStop (List LineRecord × LabelTable) :=
  match layoutFrom 0 [] src with
  | .error e => .error e
  | .ok (rs, t) =>
    match List.find? (fun e => (instructionRecords rs).length ≤ e.2) t with
    | some e => .error (.labelWithoutInstruction e.1)
    | none => .ok (rs, t)

/-! ## Pass 2, encoding (R63) -/

/-- Mnemonic lookup, case-insensitive (R58). -/
def lookupMnemonic (tok : Text) : Except ToolStop Opcode :=
  let low := tok.map Char.toLower
  if low = mnemonicText .add then .ok .add
  else if low = mnemonicText .and then .ok .and
  else if low = mnemonicText .not then .ok .not
  else if low = mnemonicText .bnz then .ok .bnz
  else .error (.invalidMnemonicOrRegister tok)

/-- Register lookup, a table of its own (R59). `R0` in upper case is no register token (U8; log 11). -/
def lookupReg (tok : Text) : Except ToolStop Reg :=
  if tok = regText .r0 then .ok .r0
  else if tok = regText .r1 then .ok .r1
  else if tok = regText .r2 then .ok .r2
  else if tok = regText .r3 then .ok .r3
  else .error (.invalidMnemonicOrRegister tok)

/-- Three register tokens, destination first (R60). -/
def parseThree (mk : Reg → Reg → Reg → Instr) (m : Text) : List Text → Except ToolStop Instr
  | [d, n, e] => do return mk (← lookupReg d) (← lookupReg n) (← lookupReg e)
  | _ => .error (.operandCount m)

/-- Two register tokens, destination first (R60). -/
def parseTwo (mk : Reg → Reg → Instr) (m : Text) : List Text → Except ToolStop Instr
  | [d, n] => do return mk (← lookupReg d) (← lookupReg n)
  | _ => .error (.operandCount m)

/-- One label token, resolved in the Label Table (R63); there is no numeric form (N10, U9), and an address above 63
is not given to the codec (U7). -/
def parseTarget (t : LabelTable) (m : Text) : List Text → Except ToolStop Instr
  | [name] =>
    match t.resolve name with
    | .error e => .error e
    | .ok a => if a < 64 then .ok (.bnz (BitVec.ofNat 6 a)) else .error (.targetAbove63 a)
  | _ => .error (.operandCount m)

/-- An instruction text with its tokens looked up (R60, R63). -/
def parseInstr (t : LabelTable) (code : Text) : Except ToolStop Instr :=
  match tokens code with
  | [] => .error (.operandCount [])
  | m :: ops =>
    match lookupMnemonic m with
    | .error e => .error e
    | .ok .add => parseThree Instr.add m ops
    | .ok .and => parseThree Instr.and m ops
    | .ok .not => parseTwo Instr.not m ops
    | .ok .bnz => parseTarget t m ops

/-- Pass 2: the packed bytes of the records, in address order (R63). -/
def pass2 (t : LabelTable) : List LineRecord → Except ToolStop (List Byte)
  | [] => .ok []
  | r :: rs =>
    match parseInstr t r.line.code with
    | .error e => .error e
    | .ok i =>
      match pass2 t rs with
      | .error e => .error e
      | .ok bs => .ok (encode i :: bs)

/-- The assembler: Pass 1 completes before Pass 2 begins (R62, C6). -/
def assemble (src : List Text) : Except ToolStop (List Byte) :=
  match pass1 src with
  | .error e => .error e
  | .ok (rs, t) => pass2 t (instructionRecords rs)

/-! ## Listing (R68, informative) -/

/-- A two-digit address; a larger one is refused. -/
def listingAddr (a : Nat) : Except ToolStop Text :=
  if a < 256 then .ok (hex2 (BitVec.ofNat 8 a)) else .error (.listingAddress a)

/-- The label section: name, tab, address. -/
def listLabels : LabelTable → Except ToolStop (List Text)
  | [] => .ok []
  | (name, a) :: t => do return (name ++ '\t' :: (← listingAddr a)) :: (← listLabels t)

/-- The program section: address, colon, byte, tab, instruction text. -/
def listProgram : List LineRecord → List Byte → Except ToolStop (List Text)
  | r :: rs, b :: bs => do
    return ((← listingAddr r.addr) ++ ':' :: hex2 b ++ '\t' :: r.line.code) :: (← listProgram rs bs)
  | _, _ => .ok []

/-- The listing of a source file (R68). -/
def listing (src : List Text) : Except ToolStop (List Text) := do
  let (rs, t) ← pass1 src
  let bs ← pass2 t (instructionRecords rs)
  return (← listLabels t) ++ (← listProgram (instructionRecords rs) bs)

end Sys2Proof.Machine
end

