-- ==== Sys2Proof/Safety.lean ====
section
/-! DEFINITION. What counts as a good state and a safe run: the invariants and relations that the statements use. -/

namespace Sys2Proof.Machine

/-- The observation agrees with the state: its pc, flag and registers are the state's (R101). -/
def Obs.shows (o : Obs) (s : State) : Prop := o.pc = s.pc ∧ o.z = s.z ∧ o.regs = s.regs

/-- The zero flag an observation's instruction left, `z` being the flag before it: that of the value its destination
holds, and `z` where it has no destination (R17, R18). -/
def Obs.flagAfter (z : Bool) (o : Obs) : Bool :=
  match o.instr.dest with
  | some rd => zeroFlag (o.regs.get rd)
  | none => z

/-- The zero flag that a run's observations account for, from `Z = 0` at reset (R17). -/
def flagHistory (os : List Obs) : Bool := os.foldl Obs.flagAfter false

/-- The invariant of the machine between steps. -/
structure State.Inv (c : Params) (s : State) : Prop where
  /-- "between steps `pc` is in the range 0 to 62" (R15). -/
  pc_le : s.pc.toNat ≤ 62
  /-- The program store keeps its canonical form. -/
  store_wf : s.store.wf = true
  /-- `0 ≤ N ≤ 64` (R5, R32). -/
  len_le : s.progLen ≤ progSlots
  /-- At most `BUDGET` steps are executed (R105). -/
  cyc_le : s.cyc ≤ s.budget
  /-- In Idle the machine is fresh (R25). -/
  idle_fresh : s.status = .idle → s = s.fresh
  /-- A run ends `Done` only with its budget spent (R9). -/
  done_spent : s.status = .done → s.cyc = s.budget
  /-- A run ends `Overrun` only at `pc >= N` with budget left (R9, R110). -/
  overrun_at : s.status = .overrun → s.progLen ≤ s.pc.toNat ∧ s.cyc < s.budget
  /-- One observation for each executed step, numbered on from the base (R101, D9). -/
  obs_numbered : s.obs.map Obs.index = List.range' c.obsIndexBase s.cyc
  /-- The last observation shows the current state (R101). -/
  obs_shows : ∀ o, s.obs.getLast? = some o → o.shows s
  /-- The zero flag is what the executed instructions made it, 0 before any (R17). -/
  flag_history : s.z = flagHistory s.obs

/-- Every slot below N is loaded: what the host must do before a run (R135). -/
def State.Loaded (s : State) : Prop := ∀ a, a < s.progLen → ∃ b, s.store.read a = some b

/-- An event of the block: a clock of the engine, or a host action between clocks (R28, R95). -/
inductive Event where
  | clock
  | host (a : HostAction)
deriving DecidableEq, Repr

/-- The state an event leaves. A refused host action leaves the state. -/
def State.after (c : Params) (s : State) : Event → State
  | .clock => tick c s
  | .host a =>
    match hostAct a s with
    | .next t => t
    | .fault _ => s
    | .refused _ => s

/-- `s` with the disassembly toggle off and no disassembly text in its observations (R102). -/
def State.eraseDisasm (s : State) : State :=
  { s with disasm := false, obs := s.obs.map fun o => { o with disasm := none } }

/-- `s` with no observations at all and the toggle off: what is left is all that execution can depend on (R102). -/
def State.eraseObs (s : State) : State := { s with disasm := false, obs := [] }

/-- A run's end with its state changed by `f`. -/
def RunEnd.mapState (f : State → State) : RunEnd → RunEnd
  | .done s => .done (f s)
  | .overrun s => .overrun (f s)
  | .faulted r s => .faulted r (f s)
  | .refused r s => .refused r (f s)

/-- The two stores hold the same bytes at the slots a run can fetch: below N, and never 63 (R34, R35). -/
def State.sameReachable (s : State) (m : Memory) : Prop :=
  ∀ a, a < s.progLen → a ≤ 62 → s.store.read a = m.read a

/-- What the engine's step reports at the end of a run (R9, R112): the end state of a run that ended `Done`, and the
fault or refusal that stopped another. -/
def RunEnd.outcome : RunEnd → Host.Outcome State Fault Refusal
  | .done s => .next s
  | .overrun s => .fault s.overrunFault
  | .faulted r _ => .fault r
  | .refused r _ => .refused r

/-- A run is safe when it ends `Done`: a run that ends `Overrun` has gone wrong (R112). -/
def RunEnd.safe : RunEnd → Bool
  | .done _ => true
  | .overrun _ => false
  | .faulted _ _ => false
  | .refused _ _ => false

end Sys2Proof.Machine
end

