-- ==== Sys2Proof/Certificates/Slice0/Obligations.lean ====
section
/-! DEFINITION. The statements for the provers, from the numbered rules of spec/. Where a clause rests on a decision
or derivation the spec marks as its own (D<n>, "[derived]") or on a log entry, the docstring says so. -/

open Sys2Proof Sys2Proof.Machine

/-! ## The codec -/

/-- R52, "the document's law": decoding an encoded instruction gives it back, with every operand, whatever follows in
the byte stream, and under either value of `NOT_RM_NONZERO`. Every instruction is well-formed (D11). -/
def Obligations.DecodeOfEncode : Prop :=
  ∀ (p : NotRmNonzero) (i : Instr) (rest : List Byte),
    i.wellFormed = true ∧ decodeByte (encode i) = i ∧ decode p (encode i :: rest) = .ok (i, rest)

/-- R50: the numbers `Encode` gives, that it is injective, its image of 208 bytes, and the worked example. -/
def Obligations.EncodeLayoutAndImage : Prop :=
  (∀ rd rn rm : Reg, (encode (.add rd rn rm)).toNat = 0x00 + 16 * rn.index + 4 * rm.index + rd.index) ∧
  (∀ rd rn rm : Reg, (encode (.and rd rn rm)).toNat = 0x40 + 16 * rn.index + 4 * rm.index + rd.index) ∧
  (∀ rd rn : Reg, (encode (.not rd rn)).toNat = 0x80 + 16 * rn.index + rd.index) ∧
  (∀ addr : Addr, (encode (.bnz addr)).toNat = 0xC0 + addr.toNat) ∧
  (∀ i j : Instr, encode i = encode j → i = j) ∧
  (∀ b : Byte, (∃ i, encode i = b) ↔ ¬ (b.toNat / 64 = 2 ∧ b.toNat / 4 % 4 ≠ 0)) ∧
  (∃ l : List Byte, l.Nodup ∧ l.length = 208 ∧ ∀ b : Byte, b ∈ l ↔ ∃ i, encode i = b) ∧
  encode (.and .r0 .r0 .r1) = 0x44#8

/-- R51: `Decode` is total and delivers exactly the fields of the opcode, by position in the byte. With the two worked
examples. That the 48 NOT bytes with non-zero bits 3 and 2 decode too, those bits not delivered (third clause), is the
spec's own decision D4, which R53 marks as its reading (log 1). -/
def Obligations.DecodeLayout : Prop :=
  (∀ b : Byte, b.toNat / 64 = 0 → ∃ rd rn rm, decodeByte b = .add rd rn rm ∧
    rd.index = b.toNat % 4 ∧ rn.index = b.toNat / 16 % 4 ∧ rm.index = b.toNat / 4 % 4) ∧
  (∀ b : Byte, b.toNat / 64 = 1 → ∃ rd rn rm, decodeByte b = .and rd rn rm ∧
    rd.index = b.toNat % 4 ∧ rn.index = b.toNat / 16 % 4 ∧ rm.index = b.toNat / 4 % 4) ∧
  (∀ b : Byte, b.toNat / 64 = 2 → ∃ rd rn, decodeByte b = .not rd rn ∧
    rd.index = b.toNat % 4 ∧ rn.index = b.toNat / 16 % 4) ∧
  (∀ b : Byte, b.toNat / 64 = 3 → ∃ addr : Addr, decodeByte b = .bnz addr ∧ addr.toNat = b.toNat % 64) ∧
  (∀ b : Byte, b.toNat / 64 < 4) ∧
  decodeByte 0x90#8 = .not .r0 .r1 ∧ decodeByte 0xC4#8 = .bnz 4#6

/-- R48: the fields populated depend entirely on the opcode, in range, and stand for the instruction; there are 208
distinct decoded instructions. -/
def Obligations.DecodedFieldsExact : Prop :=
  (∀ i : Instr,
    i.wellFormed = true ∧ i.fields.op = i.opcode ∧ i.fields.toInstr = .ok i ∧
    (i.fields.rn.isSome, i.fields.rm.isSome, i.fields.rd.isSome, i.fields.addr.isSome) =
      match i.opcode with
      | .add => (true, true, true, false)
      | .and => (true, true, true, false)
      | .not => (true, false, true, false)
      | .bnz => (false, false, false, true)) ∧
  ∃ l : List Instr, l.Nodup ∧ l.length = 208 ∧ ∀ i : Instr, i ∈ l

/-- R53, whose reading of the 48 NOT bytes is the spec's own decision D4 (log 1): re-encoding gives the byte back
except for those, where bits 3 and 2 are cleared. -/
def Obligations.ReencodeClearsNotBits : Prop :=
  ∀ b : Byte,
    (¬ (b.toNat / 64 = 2 ∧ b.toNat / 4 % 4 ≠ 0) → encode (decodeByte b) = b) ∧
    (b.toNat / 64 = 2 ∧ b.toNat / 4 % 4 ≠ 0 →
      encode (decodeByte b) = b &&& 0xF3#8 ∧ encode (decodeByte b) ≠ b)

/-- R55 with the decision D11: a field set that breaks the contract is refused by name, never masked; one that keeps
it is the field set of the instruction it encodes. -/
def Obligations.OutOfRangeOperandsRefused : Prop :=
  ∀ f : FieldSet,
    (∀ b, encodeFields f = .ok b ↔ ∃ i : Instr, i.fields = f ∧ encode i = b) ∧
    (∀ e, encodeFields f = .error e ↔ f.check = some e) ∧
    (f.wellFormed = true ↔ ∃ b, encodeFields f = .ok b)

/-- D4 and U1, both treatments of a NOT byte with non-zero bits 3 and 2 (log 1): by default it runs as the NOT with
the same rn and rd; under the alternative the step faults. -/
def Obligations.ReservedNotByteTreatments : Prop :=
  ∀ (base : Nat) (s : State) (b : Byte), s.pc.toNat ≤ 62 → s.pc.toNat < s.progLen →
    s.store.read s.pc.toNat = some b → b.toNat / 64 = 2 → b.toNat / 4 % 4 ≠ 0 →
    (∃ rd rn : Reg, rd.index = b.toNat % 4 ∧ rn.index = b.toNat / 16 % 4 ∧
      stepOnce ⟨.ignore, base⟩ s = runInstr ⟨.ignore, base⟩ (.not rd rn) s) ∧
    stepOnce ⟨.fault, base⟩ s = .fault (.reservedNotBits b)

/-- R27 (its ports are the spec's decision D2, D11, D12): the packer is `Encode`, inputs an opcode does not have are
ignored, the validity bits and valid wires are `Decode`'s, and unpacking then packing never depends on the wires of
an invalid field, which are free values (log 9). -/
def Obligations.CodecPortsAreTheCodec : Prop :=
  (∀ b : Byte, pack (unpack b).toPackIn = encode (decodeByte b)) ∧
  (∀ b : Byte, ((unpack b).rnRdValid = true ↔ b.toNat / 64 ≠ 3) ∧
    ((unpack b).rmValid = true ↔ b.toNat / 64 ≤ 1) ∧ ((unpack b).addrValid = true ↔ b.toNat / 64 = 3)) ∧
  (∀ b : Byte, (unpack b).op.toNat = b.toNat / 64 ∧
    ((unpack b).rnRdValid = true → (unpack b).rn.toNat = b.toNat / 16 % 4 ∧ (unpack b).rd.toNat = b.toNat % 4) ∧
    ((unpack b).rmValid = true → (unpack b).rm.toNat = b.toNat / 4 % 4) ∧
    ((unpack b).addrValid = true → (unpack b).addr.toNat = b.toNat % 64)) ∧
  (∀ (p : PackIn) (rm : BitVec 2) (addr : BitVec 6), p.op = 2#2 → pack { p with rm := rm, addr := addr } = pack p) ∧
  (∀ (p : PackIn) (addr : BitVec 6), p.op ≠ 3#2 → pack { p with addr := addr } = pack p) ∧
  (∀ (p : PackIn) (rn rm rd : BitVec 2), p.op = 3#2 → pack { p with rn := rn, rm := rm, rd := rd } = pack p)

/-- Sanity: words written out from the layout of R46 and R47 decode to the instructions they stand for. -/
def Obligations.SpecWordsDecode : Prop :=
  decodeTableWord 8 0b00101101 = some (.add .r1 .r2 .r3) ∧
  decodeTableWord 8 0b01110010 = some (.and .r2 .r3 .r0) ∧
  decodeTableWord 8 0b10010000 = some (.not .r0 .r1) ∧
  decodeTableWord 8 0b10000001 = some (.not .r1 .r0) ∧
  decodeTableWord 8 0b11000100 = some (.bnz 4#6) ∧
  decodeTableWord 8 0b11111111 = some (.bnz 63#6)

/-! ## The instructions -/

/-- R81, ADD: encoding, assembler form, and the whole next state. From every pc a step may begin at it completes. -/
def Obligations.AddResult : Prop :=
  ∀ (rd rn rm : Reg) (s : State), s.pc.toNat ≤ 62 →
    (let v : Byte := BitVec.ofNat 8 (((s.regs.get rn).toNat + (s.regs.get rm).toNat) % 256)
     exec (.add rd rn rm) s = .next { s with regs := s.regs.set rd v, z := decide (v = 0#8), pc := s.pc + 1#6 }) ∧
    (encode (.add rd rn rm)).toNat = 0x00 + 16 * rn.index + 4 * rm.index + rd.index ∧
    parseInstr [] (['a', 'd', 'd', ' '] ++ regText rd ++ [' '] ++ regText rn ++ [' '] ++ regText rm) =
      .ok (.add rd rn rm)

/-- R82, AND: encoding, assembler form, and the whole next state; bit i of the result is 1 iff bit i of both sources
is. From every pc a step may begin at it completes. -/
def Obligations.AndResult : Prop :=
  ∀ (rd rn rm : Reg) (s : State), s.pc.toNat ≤ 62 →
    (∃ v : Byte, (∀ k, k < 8 → v.getLsbD k = ((s.regs.get rn).getLsbD k && (s.regs.get rm).getLsbD k)) ∧
      exec (.and rd rn rm) s = .next { s with regs := s.regs.set rd v, z := decide (v = 0#8), pc := s.pc + 1#6 }) ∧
    (encode (.and rd rn rm)).toNat = 0x40 + 16 * rn.index + 4 * rm.index + rd.index ∧
    parseInstr [] (['a', 'n', 'd', ' '] ++ regText rd ++ [' '] ++ regText rn ++ [' '] ++ regText rm) =
      .ok (.and rd rn rm)

/-- R83, NOT: encoding, assembler form, and the whole next state; from every pc a step may begin at it completes. The
last clause, every byte of the NOT range, rests on the spec's decision D4 (log 1). -/
def Obligations.NotResult : Prop :=
  (∀ (rd rn : Reg) (s : State), s.pc.toNat ≤ 62 →
    (let v : Byte := BitVec.ofNat 8 (255 - (s.regs.get rn).toNat)
     exec (.not rd rn) s = .next { s with regs := s.regs.set rd v, z := decide (v = 0#8), pc := s.pc + 1#6 }) ∧
    (encode (.not rd rn)).toNat = 0x80 + 16 * rn.index + rd.index ∧
    parseInstr [] (['n', 'o', 't', ' '] ++ regText rd ++ [' '] ++ regText rn) = .ok (.not rd rn)) ∧
  (∀ b : Byte, 0x80 ≤ b.toNat → b.toNat ≤ 0xBF → ∃ rd rn : Reg,
    decodeByte b = .not rd rn ∧ rd.index = b.toNat % 4 ∧ rn.index = b.toNat / 16 % 4)

/-- R90, BNZ: encoding, assembler form (the label's address), disassembly, and the whole next state: no flag and no
register changes. A branch to an address ≥ N is not detected at the branch; the next step raises `ProgramOverrun`.
R90 gives the disassembly as `bnz <number>`; its lower case, single space and decimal number are the spec's own
decision D15 (log 12). -/
def Obligations.BnzResult : Prop :=
  ∀ (addr : Addr) (s : State), s.pc.toNat ≤ 62 →
    exec (.bnz addr) s = .next { s with pc := if s.z = false then addr else s.pc + 1#6 } ∧
    (encode (.bnz addr)).toNat = 0xC0 + addr.toNat ∧
    (∀ (t : LabelTable) (name : Text), t.find name = some addr.toNat →
      parseTarget t ['b', 'n', 'z'] [name] = .ok (.bnz addr)) ∧
    disassemble (.bnz addr) = ['b', 'n', 'z', ' '] ++ decimal addr.toNat ∧
    (∀ c : Params, s.z = false → s.progLen ≤ addr.toNat → addr.toNat ≤ 62 →
      ∃ t, runInstr c (.bnz addr) s = .next t ∧ t.pc = addr ∧
        stepOnce c t = .fault (.programOverrun addr s.progLen))

/-- The frame of ADD, AND and NOT: every register but the destination, every slot of the program store, and every
other field of the state but `Z` and `pc`. R80 (f) and R12, with R31. -/
def Obligations.AluFrame : Prop :=
  ∀ (i : Instr) (rd : Reg) (s t : State), i.dest = some rd → exec i s = .next t →
    (∀ r, r ≠ rd → t.regs.get r = s.regs.get r) ∧
    (∀ a, t.store.read a = s.store.read a) ∧ t.store = s.store ∧
    t.cyc = s.cyc ∧ t.status = s.status ∧ t.progLen = s.progLen ∧ t.budget = s.budget ∧
    t.disasm = s.disasm ∧ t.obs = s.obs

/-- The frame of BNZ, taken or not: every register, the zero flag, every slot of the program store, and every other
field but `pc`. R12, R18, R90, with R31. -/
def Obligations.BnzFrame : Prop :=
  ∀ (addr : Addr) (s t : State), exec (.bnz addr) s = .next t →
    (∀ r, t.regs.get r = s.regs.get r) ∧ t.z = s.z ∧
    (∀ a, t.store.read a = s.store.read a) ∧ t.store = s.store ∧
    t.cyc = s.cyc ∧ t.status = s.status ∧ t.progLen = s.progLen ∧ t.budget = s.budget ∧
    t.disasm = s.disasm ∧ t.obs = s.obs

/-- R18: ADD, AND and NOT write `Z` on every execution, 1 iff the destination's new value is exactly 0, and do not
read it; BNZ does not write it and its next pc depends on it; finishing a step (its observation) does not change it. -/
def Obligations.ZeroFlagWritersAndReaders : Prop :=
  ∀ (c : Params) (i : Instr) (s t : State), exec i s = .next t →
    (∀ rd, i.dest = some rd → (t.z = true ↔ t.regs.get rd = 0#8)) ∧
    (∀ rd, i.dest = some rd → ∀ v, exec i { s with z := v } = .next t) ∧
    (∀ addr, i = .bnz addr → t.z = s.z ∧
      exec i { s with z := false } = .next { s with z := false, pc := addr } ∧
      exec i { s with z := true } = .next { s with z := true, pc := s.pc + 1#6 }) ∧
    (t.finishStep c i).z = t.z

/-- R12: each instruction's effect depends on its source registers alone and writes its destination alone (BNZ reads
and writes none); the observation reads all four without changing them; a clock that executes no step changes none. -/
def Obligations.RegisterReadsAndWrites : Prop :=
  (∀ (i : Instr) (s s' t t' : State), exec i s = .next t → exec i s' = .next t' →
    s.pc = s'.pc → s.z = s'.z → (∀ r ∈ i.sources, s.regs.get r = s'.regs.get r) →
    t.pc = t'.pc ∧ t.z = t'.z ∧ (∀ rd, i.dest = some rd → t.regs.get rd = t'.regs.get rd)) ∧
  (∀ (i : Instr) (s t : State), exec i s = .next t → ∀ r, i.dest ≠ some r → t.regs.get r = s.regs.get r) ∧
  (∀ (c : Params) (i : Instr) (t : State), (t.finishStep c i).regs = t.regs ∧
    ∀ o, (t.finishStep c i).obs.getLast? = some o → o.regs = t.regs) ∧
  (∀ (c : Params) (s t : State), engineStep c s = .next t → t.cyc = s.cyc → t.regs = s.regs)

/-- R85 (derived by the spec): an ADD is also two's-complement addition that keeps the low 8 bits. -/
def Obligations.AddAsSignedAddition : Prop :=
  ∀ (rd rn rm : Reg) (s t : State), exec (.add rd rn rm) s = .next t →
    (t.regs.get rd).toInt = ((s.regs.get rn).toInt + (s.regs.get rm).toInt).bmod 256

/-- R87 (derived by the spec): the eight idioms, from the values their rows assume. -/
def Obligations.Idioms : Prop :=
  (∀ (d src : Reg) (s t : State), exec (.and d src src) s = .next t → t.regs.get d = s.regs.get src) ∧
  (∀ (src : Reg) (s t : State), exec (.and src src src) s = .next t →
    t.regs = s.regs ∧ (t.z = true ↔ s.regs.get src = 0#8)) ∧
  (∀ (d src : Reg) (s t : State), s.regs.get src = 0#8 → exec (.not d src) s = .next t → t.regs.get d = 0xFF#8) ∧
  (∀ (d f : Reg) (s t u : State), s.regs.get f = 0xFF#8 →
    exec (.add d f f) s = .next t → exec (.not d d) t = .next u → u.regs.get d = 0x01#8) ∧
  (∀ (d f : Reg) (s t : State), s.regs.get f = 0xFF#8 → exec (.add d d f) s = .next t →
    (t.regs.get d).toNat = ((s.regs.get d).toNat + 255) % 256) ∧
  (∀ (d : Reg) (s t : State), exec (.add d d d) s = .next t →
    (t.regs.get d).toNat = (2 * (s.regs.get d).toNat) % 256) ∧
  (∀ (d src u : Reg) (s t w : State), s.regs.get u = 0x01#8 → d ≠ u →
    exec (.not d src) s = .next t → exec (.add d d u) t = .next w →
    (w.regs.get d).toNat = (256 - (s.regs.get src).toNat) % 256) ∧
  (∀ (d k : Reg) (s t w : State), k ≠ d →
    exec (.not k d) s = .next t → exec (.and d d k) t = .next w → w.regs.get d = 0#8 ∧ w.z = true)

/-! ## The step -/

/-- R96: in a run with budget left, from a pc of 0 to 62 below N on a loaded slot, one clock runs the instruction
its byte decodes to, then forces a pc of 63 to 0, counts the step and emits its observation. The first index is 1
(D9; log 6) and every byte decodes (D4; log 1). -/
def Obligations.StepRunsDecodedInstruction : Prop :=
  ∀ (s : State) (b : Byte), s.status = .running → s.cyc < s.budget → s.pc.toNat ≤ 62 → s.pc.toNat < s.progLen →
    s.store.read s.pc.toNat = some b →
    ∃ t, exec (decodeByte b) s = .next t ∧
      (let pc' : Addr := if t.pc = 63#6 then 0#6 else t.pc
       let o : Obs := ⟨s.cyc + 1, pc', t.z, t.regs, decodeByte b,
         if s.disasm then some (disassemble (decodeByte b)) else none⟩
       step s = .next { t with pc := pc', cyc := s.cyc + 1, obs := s.obs ++ [o] })

/-- R97: after any instruction, BNZ too, a resulting pc of exactly 63 is forced to 0 and any other is kept; the
wraparound changes `pc` only (not `Z`, not a register) and raises nothing: the step's instruction completes. -/
def Obligations.PostStepWraparound : Prop :=
  ∀ (c : Params) (i : Instr) (s : State), s.pc.toNat ≤ 62 →
    ∃ t u, exec i s = .next t ∧ runInstr c i s = .next u ∧
      (t.pc = 63#6 → u.pc = 0#6) ∧ (t.pc ≠ 63#6 → u.pc = t.pc) ∧
      u.z = t.z ∧ u.regs = t.regs

/-- R110: with a step about to begin, `ProgramOverrun` is raised exactly when `pc >= N` (N = 0 included), by the run
loop whatever the instruction, before any fetch: whatever the program store holds. -/
def Obligations.OverrunExactlyAtLength : Prop :=
  ∀ (c : Params) (s : State), s.status = .running → s.cyc < s.budget → s.pc.toNat ≤ 62 →
    (s.progLen ≤ s.pc.toNat → ∀ m : Memory,
      engineStep c { s with store := m } = .fault (.programOverrun s.pc s.progLen)) ∧
    (∀ p n, engineStep c s = .fault (.programOverrun p n) → s.progLen ≤ s.pc.toNat ∧ p = s.pc ∧ n = s.progLen)

/-- R111: the failing step changes no register, not `Z`, not `pc` and not `cyc`, emits no observation, and only sets
`status <- Overrun`; the steps before it keep their effect. -/
def Obligations.FailingStepOnlySetsStatus : Prop :=
  ∀ (c : Params) (s : State), s.status = .running → s.cyc < s.budget → s.pc.toNat ≤ 62 →
    s.progLen ≤ s.pc.toNat → tick c s = { s with status := .overrun }

/-- R112 (its hardware form is the spec's decision D7): after `Overrun` no clock changes anything, no host action but
reset is taken, and reset gives the fresh machine in Idle. The model's own: every clock in Overrun reports the failure
again (log 2), the other host actions are refused by name (log 8), and the fresh machine's observation list is empty
(log 7). -/
def Obligations.OverrunIsFinal : Prop :=
  ∀ (c : Params) (s : State), s.status = .overrun →
    (∀ k : Nat, (tick c)^[k] s = s) ∧
    engineStep c s = .fault (.programOverrun s.pc s.progLen) ∧
    (∀ a : HostAction, a ≠ .reset → hostAct a s = .refused (.portClosed .overrun)) ∧
    ∃ t, hostAct .reset s = .next t ∧ t.status = .idle ∧ t = t.fresh

/-- R98 and R117 (1): the budget test comes first. Once `BUDGET` steps have been executed the run ends `Done`, with
no overrun check even at `pc >= N`. That this takes a clock of its own is the model's choice (log 2). -/
def Obligations.BudgetTestedFirst : Prop :=
  ∀ (c : Params) (s : State), s.status = .running → s.budget ≤ s.cyc →
    engineStep c s = .next { s with status := .done }

/-- The model's choice (log 2, from R25, R28 and D7): outside a run a clock changes nothing; a run that is done stays
done. -/
def Obligations.IdleAndDoneHold : Prop :=
  ∀ (c : Params) (s : State), s.status = .idle ∨ s.status = .done →
    engineStep c s = .next s ∧ ∀ k : Nat, (tick c)^[k] s = s

/-- D10 and U3, the spec's decision (log 5): a step that begins with `pc = 63` is refused, whatever N, the slot and
the instruction; it is not given `pc + 1 = 0` or 64. -/
def Obligations.StepFrom63Refused : Prop :=
  ∀ (c : Params) (s : State), s.pc = 63#6 →
    stepOnce c s = .refused .stepFrom63 ∧ ∀ i : Instr, exec i s = .refused .stepFrom63

/-- R42 (b), R44 and R26: no clock changes the program store, N, BUDGET or DISASM; every slot reads as before. -/
def Obligations.ProgramConstantDuringRun : Prop :=
  ∀ s t : State, step s = .next t →
    t.store = s.store ∧ (∀ a, t.store.read a = s.store.read a) ∧ t.progLen = s.progLen ∧
    t.budget = s.budget ∧ t.disasm = s.disasm

/-- R34 and R35 (derived by the spec), over whole runs: slots at addresses ≥ N, and slot 63 whatever N is, never
influence execution. -/
def Obligations.UnreachableSlotsNeverRead : Prop :=
  ∀ (c : Params) (k : Nat) (s : State) (m : Memory), s.sameReachable m →
    runLoop c k { s with store := m } = (runLoop c k s).mapState fun t => { t with store := m }

/-- R102, over whole runs: the observations never feed back into execution, and `DISASM` changes only whether the
disassembly text accompanies them. -/
def Obligations.ObservationNeverFeedsBack : Prop :=
  (∀ (c : Params) (k : Nat) (s s' : State), s.eraseObs = s'.eraseObs →
    (runLoop c k s).mapState State.eraseObs = (runLoop c k s').mapState State.eraseObs) ∧
  (∀ (c : Params) (k : Nat) (s s' : State), s.eraseDisasm = s'.eraseDisasm →
    (runLoop c k s).mapState State.eraseDisasm = (runLoop c k s').mapState State.eraseDisasm)

/-- R101, with the index base of D9 (log 6) and the log in State (log 7): a clock that executes a step appends exactly
one observation: its index, the state after the step, the instruction fetched at the step's starting pc. Any other
clock emits none. -/
def Obligations.ObservationOfEachStep : Prop :=
  ∀ (c : Params) (s t : State), engineStep c s = .next t →
    (t.cyc = s.cyc ∧ t.obs = s.obs) ∨
    (t.cyc = s.cyc + 1 ∧ ∃ o b, t.obs = s.obs ++ [o] ∧ o.index = c.obsIndexBase + s.cyc ∧ o.shows t ∧
      s.store.read s.pc.toNat = some b ∧ decodeByte b = o.instr ∧
      o.disasm = if s.disasm then some (disassemble o.instr) else none)

/-- R28 (its ports are the spec's decision D3): `obs_valid` is high exactly for a clock in which a step completes,
with `obs_instr` that step's instruction, and the other outputs are the state the clock leaves: pc, z, r0 to r3, cyc,
and `status` in the numeric encoding of R114, which is the spec's own (D18). That a clock executes at most one step and
what it does outside a run is log 2. -/
def Obligations.EngineOutputs : Prop :=
  ∀ (c : Params) (s : State),
    ((engineOut c s).obsValid = true ↔ (tick c s).cyc = s.cyc + 1) ∧
    (∀ i, (engineOut c s).obsInstr = some i → ∃ b, s.store.read s.pc.toNat = some b ∧ decodeByte b = i) ∧
    (engineOut c s).pc = (tick c s).pc ∧ (engineOut c s).z = (tick c s).z ∧ (engineOut c s).cyc = (tick c s).cyc ∧
    (engineOut c s).r0 = (tick c s).regs.x0 ∧ (engineOut c s).r1 = (tick c s).regs.x1 ∧
    (engineOut c s).r2 = (tick c s).regs.x2 ∧ (engineOut c s).r3 = (tick c s).regs.x3 ∧
    (engineOut c s).status = (tick c s).status.code ∧
    ((tick c s).status = .idle → (engineOut c s).status = 0#2) ∧
    ((tick c s).status = .running → (engineOut c s).status = 1#2) ∧
    ((tick c s).status = .done → (engineOut c s).status = 2#2) ∧
    ((tick c s).status = .overrun → (engineOut c s).status = 3#2)

/-- R104 (derived by the spec): an instruction executes only at an address below min(N, 63). -/
def Obligations.ExecutesOnlyReachableAddresses : Prop :=
  ∀ (c : Params) (s t : State), engineStep c s = .next t → t.cyc ≠ s.cyc →
    s.pc.toNat < min s.progLen 63 ∧ t.pc.toNat ≤ 62

/-! ## Reset, the host, invariants -/

/-- R130 and R131 (derived by the spec, D13; N, BUDGET and DISASM are not reset: their power-on values are log 4,
the empty store log 3, the empty observation list log 7): the state after reset. -/
def Obligations.ResetState : Prop :=
  (∀ r : Reg, State.reset.regs.get r = 0x00#8) ∧ State.reset.z = false ∧ State.reset.pc = 0#6 ∧
  State.reset.cyc = 0 ∧ State.reset.status = .idle ∧ State.reset.obs = []

/-- R133 with R131 (its form is the spec's decision D13, the zero registers and pc its derivation, log 14): `rst` from
any state, in the middle of a run too, gives the fresh machine in Idle and leaves the program store. The model's own:
the observation list is cleared (log 7), and N, BUDGET and DISASM, which R131 calls no state but supplied by the host,
are kept (log 4). -/
def Obligations.RstFromAnyState : Prop :=
  ∀ s : State, ∃ t, hostAct .reset s = .next t ∧
    (∀ r : Reg, t.regs.get r = 0x00#8) ∧ t.z = false ∧ t.pc = 0#6 ∧ t.cyc = 0 ∧ t.status = .idle ∧ t.obs = [] ∧
    t.store = s.store ∧ t.progLen = s.progLen ∧ t.budget = s.budget ∧ t.disasm = s.disasm

/-- R28 and R29 (the spec's decisions D3, D5, D16, D19; refusing is log 8): outside Idle the load, length and start
ports do nothing. In Idle a load writes one slot and no other, N may be 0 to 64, and `start` begins a run from the
fresh machine (log 8, from R98; its observation list is empty, log 7) with the budget given, or 20. -/
def Obligations.HostPortsOnlyInIdle : Prop :=
  ∀ s : State,
    (s.status ≠ .idle → ∀ a : HostAction, a ≠ .reset → hostAct a s = .refused (.portClosed s.status)) ∧
    (s.status = .idle →
      (∀ addr data, ∃ m, hostAct (.load addr data) s = .next { s with store := m } ∧
        m.read addr.toNat = some data ∧ ∀ a, a ≠ addr.toNat → m.read a = s.store.read a) ∧
      (∀ n, n ≤ 64 → hostAct (.setLength n) s = .next { s with progLen := n }) ∧
      (∀ n, 64 < n → hostAct (.setLength n) s = .refused (.lengthOutOfRange n)) ∧
      (∀ budget d, hostAct (.start budget d) s =
        .next { regs := ⟨0, 0, 0, 0⟩, z := false, pc := 0, cyc := 0, status := .running, store := s.store,
                progLen := s.progLen, budget := budget.getD 20, disasm := d, obs := [] }))

/-- The invariant of the machine holds after reset: R15 and R131, with the power-on values of log 3, log 4 and log 7,
on which its clauses about the store, N, BUDGET and the observations rest, and of log 14. -/
def Obligations.ResetMeetsInvariant : Prop :=
  ∀ c : Params, State.reset.Inv c

/-- The invariant (R15: pc 0 to 62; R32; R25; R9; R101; R17: the flag is what the executed instructions made it; the
store's canonical form) is kept by every step. Numbering from the base is D9 (log 6), the list itself log 7, the form of
the store log 3, the clock that ends a run log 2, N at most 64 D5 (log 15). -/
def Obligations.StepKeepsInvariant : Prop :=
  ∀ s t : State, s.Inv params → step s = .next t → t.Inv params

/-- Every event of the block keeps the invariant: a clock, a clock that fails with `ProgramOverrun` too (R111), and
every host action between clocks (R28, R29, R133), under every value of the open parameters. It rests on the model's
choices as `StepKeepsInvariant` does, and on log 8 for the host actions. -/
def Obligations.EventsKeepInvariant : Prop :=
  ∀ (c : Params) (s : State) (e : Event), s.Inv c → (s.after c e).Inv c

/-! ## Runs -/

/-- R32 and R135: the state a run begins in (log 8) holds byte k of the image in slot k, and N is the number of bytes;
an image of more than 64 bytes is cut to 64 (D5, the spec's decision; log 15). That the slots from N up read as no value
is the model's choice (log 3): R131 and R34 call them unspecified and D6 leaves them out. The store is in canonical
form. -/
def Obligations.LoadedImage : Prop :=
  ∀ (image : List Byte) (budget : Option Nat) (d : Bool),
    (∀ a, a < 64 → (bootState image budget d).store.read a = image[a]?) ∧
    (∀ a, 64 ≤ a → (bootState image budget d).store.read a = none) ∧
    (bootState image budget d).progLen = min 64 image.length ∧
    (bootState image budget d).store.wf = true ∧ (bootState image budget d).Inv params

/-- R98: the run loop, `BUDGET` steps from the fresh machine, is what clocking the core `BUDGET + 1` times does, the
last clock ending the run (log 2): the end state where the run ends `Done`, and otherwise the failure that ended it. The
run begins in the loaded and started machine of log 8. -/
def Obligations.RunLoopIsClockedCore : Prop :=
  ∀ (image : List Byte) (budget : Option Nat) (d : Bool),
    core.run (budget.getD 20 + 1) (bootState image budget d) = (run params image budget d).outcome

/-- R9: a run ends in exactly one of two ways, `Done` after `BUDGET` steps, or `Overrun` with a step about to begin
at `pc >= N` and budget left; nothing else stops it. It rests on two decisions of the spec: by default every byte
decodes (D4, log 1), and an image of more than 64 bytes is cut (D5, log 15). -/
def Obligations.EveryRunEndsDoneOrOverrun : Prop :=
  ∀ (image : List Byte) (budget : Option Nat) (d : Bool),
    (∃ t, run params image budget d = .done t ∧ t.status = .done ∧ t.cyc = budget.getD 20) ∨
    (∃ t, run params image budget d = .overrun t ∧ t.status = .overrun ∧ t.progLen ≤ t.pc.toNat ∧
      t.progLen = image.length ∧ t.cyc < budget.getD 20)

/-- R106 (derived by the spec): the observations of a run with a smaller budget are a prefix of those of a run with a
larger one, under every value of the open parameters. A long image is cut (D5, log 15); the list is log 7. -/
def Obligations.LargerBudgetExtendsRun : Prop :=
  ∀ (c : Params) (image : List Byte) (k n : Nat) (d : Bool), k ≤ n →
    (run c image (some k) d).state.obs <+: (run c image (some n) d).state.obs

/-- R100 (b) and R35: with N ≥ 63 `ProgramOverrun` can never be raised; every run ends `Done`. That it ends `Done`
rests on two decisions of the spec: by default every byte decodes, the 48 NOT bytes too (D4, log 1), and an image of
more than 64 bytes is accepted and cut (D5, log 15). -/
def Obligations.FullStoreNeverOverruns : Prop :=
  ∀ (image : List Byte) (budget : Option Nat) (d : Bool), 63 ≤ image.length →
    ∃ t, run params image budget d = .done t ∧ t.cyc = budget.getD 20

/-- R92, first case (derived by the spec): a BNZ to its own address, taken once, is taken on every following step for
the rest of the budget, with pc, flag and registers unchanged. -/
def Obligations.SelfBranchSpins : Prop :=
  ∀ (c : Params) (k : Nat) (s : State), s.pc.toNat ≤ 62 → s.pc.toNat < s.progLen → s.z = false →
    s.store.read s.pc.toNat = some (BitVec.ofNat 8 (0xC0 + s.pc.toNat)) →
    ∃ t, runLoop c k s = .done t ∧ t.pc = s.pc ∧ t.z = false ∧ t.regs = s.regs ∧ t.cyc = s.cyc + k

/-- R99 (derived by the spec, D8): a budget of 0 executes no step, checks nothing and ends `Done` fresh, even when
N = 0; a budget of 1 or more with N = 0 overruns at once; no budget given is 20. The empty observation list is log 7,
the cut of a long image D5 (log 15). -/
def Obligations.BudgetCorners : Prop :=
  ∀ (c : Params) (image : List Byte) (d : Bool),
    run c image (some 0) d = .done { bootState image (some 0) d with status := .done } ∧
    (∀ k, ∃ t, run c [] (some (k + 1)) d = .overrun t ∧ t.pc = 0#6 ∧ t.cyc = 0 ∧ t.obs = []) ∧
    run c image none d = run c image (some 20) d

/-! ## The tools around the hardware -/

/-- R66 and R67 with the digit order of G1 (log 12) and U6: the loader accepts exactly the object file of a program,
gives that program back, decoded by the codec at load time where asked; everything else is `BadFormat`. -/
def Obligations.LoaderAcceptsExactlyTheFormat : Prop :=
  (∀ (ls : List Text) (p : List Byte), loadObject ls = .ok p ↔ ls = objectFile p) ∧
  (∀ (ls : List Text) (e : ToolStop), loadObject ls = .error e → e = .badFormat) ∧
  (∀ p : List Byte, loadDecoded (objectFile p) = .ok (p.map decodeByte))

/-- D15 with R60, R63 and R64 (the text form is the spec's decision; log 12): the disassembly of a program without
branches assembles to the bytes of that program. -/
def Obligations.DisassemblyReassembles : Prop :=
  ∀ prog : List Instr, (∀ i ∈ prog, i.opcode ≠ .bnz) →
    assemble (prog.map disassemble) = .ok (prog.map encode)

/-- R61, the Label Table: a bound name resolves to its address, binding it again fails with `DuplicateLabel`, the other
names are untouched, and a name that equals no key, trimmed or not, fails with `UnknownLabel` (the trimmed case is
refused, log 11). -/
def Obligations.LabelTableLaws : Prop :=
  ∀ (t t' : LabelTable) (name : Text) (a : Nat), t.bind name a = .ok t' →
    t'.resolve name = .ok a ∧
    (∀ b, t'.bind name b = .error (.duplicateLabel name)) ∧
    (∀ other, other ≠ name → t'.find other = t.find other) ∧
    (∀ other, (∀ e ∈ t', e.1 ≠ other ∧ trim e.1 ≠ other) → t'.resolve other = .error (.unknownLabel other))

/-- R61, R115 and S6: a source file in which two lines carry one label does not assemble. Where no line's label is empty
it fails with `DuplicateLabel`, and the label named is one that two lines carry. An empty label is refused (the model's
choice, log 11), and which of several errors comes first is its choice too: a file that has an empty label as well fails
with that refusal or with `DuplicateLabel`. -/
def Obligations.DuplicateLabelFails : Prop :=
  ∀ (src : List Text) (name : Text), 2 ≤ src.countP (fun l => (splitLine l).label = some name) →
    ((∀ l ∈ src, (splitLine l).label ≠ some []) →
      ∃ n, assemble src = .error (.duplicateLabel n) ∧ 2 ≤ src.countP (fun l => (splitLine l).label = some n)) ∧
    ((∃ l ∈ src, (splitLine l).label = some []) →
      assemble src = .error (.labelText []) ∨
      ∃ n, assemble src = .error (.duplicateLabel n) ∧ 2 ≤ src.countP (fun l => (splitLine l).label = some n))

/-- R57: a comment, from the first `;` of a line, changes no byte of the program and no error: a `:` inside it is no
label delimiter. -/
def Obligations.CommentsChangeNothing : Prop :=
  ∀ src : List Text, assemble (src.map fun l => (splitFirst ';' l).1) = assemble src

/-- R62 and R63: N is the number of lines whose instruction text is non-empty; comment-only and label-only lines take
no address. -/
def Obligations.AssembledLength : Prop :=
  ∀ (src : List Text) (p : List Byte), assemble src = .ok p →
    p.length = (src.filter fun l => (splitLine l).code ≠ []).length
end

