-- ==== Sys2Proof/Laws/State.lean ====
section
/-! SUPPORT. One lemma per field per update of State, and the register file's read-after-write laws. -/

namespace Sys2Proof.Machine

section Regs
variable (r : Regs) (i j : Reg) (v w : Byte)

@[simp] theorem Regs.get_set_same : (r.set i v).get i = v := by cases i <;> rfl

theorem Regs.get_set_other (h : j ≠ i) : (r.set i v).get j = r.get j := by
  cases i <;> cases j <;> first | rfl | exact absurd rfl h

@[simp] theorem Regs.set_set : (r.set i v).set i w = r.set i w := by cases i <;> rfl

@[simp] theorem Regs.set_get_self : r.set i (r.get i) = r := by cases i <;> rfl

/-- Two register files that agree on every register are equal (R10, R11). -/
theorem Regs.ext_get {r r' : Regs} (h : ∀ i, r.get i = r'.get i) : r = r' := by
  obtain ⟨a, b, c, d⟩ := r
  obtain ⟨a', b', c', d'⟩ := r'
  have h0 : a = a' := h .r0
  have h1 : b = b' := h .r1
  have h2 : c = c' := h .r2
  have h3 : d = d' := h .r3
  subst h0 h1 h2 h3
  rfl

end Regs

section Updates
variable (s : State) (i : Reg) (v : Byte) (f : Bool) (a : Addr)

@[simp] theorem State.setReg_regs : (s.setReg i v).regs = s.regs.set i v := rfl
@[simp] theorem State.setReg_z : (s.setReg i v).z = s.z := rfl
@[simp] theorem State.setReg_pc : (s.setReg i v).pc = s.pc := rfl
@[simp] theorem State.setReg_cyc : (s.setReg i v).cyc = s.cyc := rfl
@[simp] theorem State.setReg_status : (s.setReg i v).status = s.status := rfl
@[simp] theorem State.setReg_store : (s.setReg i v).store = s.store := rfl
@[simp] theorem State.setReg_progLen : (s.setReg i v).progLen = s.progLen := rfl
@[simp] theorem State.setReg_budget : (s.setReg i v).budget = s.budget := rfl
@[simp] theorem State.setReg_disasm : (s.setReg i v).disasm = s.disasm := rfl
@[simp] theorem State.setReg_obs : (s.setReg i v).obs = s.obs := rfl

@[simp] theorem State.setZ_regs : (s.setZ f).regs = s.regs := rfl
@[simp] theorem State.setZ_z : (s.setZ f).z = f := rfl
@[simp] theorem State.setZ_pc : (s.setZ f).pc = s.pc := rfl
@[simp] theorem State.setZ_cyc : (s.setZ f).cyc = s.cyc := rfl
@[simp] theorem State.setZ_status : (s.setZ f).status = s.status := rfl
@[simp] theorem State.setZ_store : (s.setZ f).store = s.store := rfl
@[simp] theorem State.setZ_progLen : (s.setZ f).progLen = s.progLen := rfl
@[simp] theorem State.setZ_budget : (s.setZ f).budget = s.budget := rfl
@[simp] theorem State.setZ_disasm : (s.setZ f).disasm = s.disasm := rfl
@[simp] theorem State.setZ_obs : (s.setZ f).obs = s.obs := rfl

@[simp] theorem State.setPc_regs : (s.setPc a).regs = s.regs := rfl
@[simp] theorem State.setPc_z : (s.setPc a).z = s.z := rfl
@[simp] theorem State.setPc_pc : (s.setPc a).pc = a := rfl
@[simp] theorem State.setPc_cyc : (s.setPc a).cyc = s.cyc := rfl
@[simp] theorem State.setPc_status : (s.setPc a).status = s.status := rfl
@[simp] theorem State.setPc_store : (s.setPc a).store = s.store := rfl
@[simp] theorem State.setPc_progLen : (s.setPc a).progLen = s.progLen := rfl
@[simp] theorem State.setPc_budget : (s.setPc a).budget = s.budget := rfl
@[simp] theorem State.setPc_disasm : (s.setPc a).disasm = s.disasm := rfl
@[simp] theorem State.setPc_obs : (s.setPc a).obs = s.obs := rfl

@[simp] theorem State.advance_regs : s.advance.regs = s.regs := rfl
@[simp] theorem State.advance_z : s.advance.z = s.z := rfl
@[simp] theorem State.advance_pc : s.advance.pc = s.pc + 1#6 := rfl
@[simp] theorem State.advance_cyc : s.advance.cyc = s.cyc := rfl
@[simp] theorem State.advance_status : s.advance.status = s.status := rfl
@[simp] theorem State.advance_store : s.advance.store = s.store := rfl
@[simp] theorem State.advance_progLen : s.advance.progLen = s.progLen := rfl
@[simp] theorem State.advance_budget : s.advance.budget = s.budget := rfl
@[simp] theorem State.advance_disasm : s.advance.disasm = s.disasm := rfl
@[simp] theorem State.advance_obs : s.advance.obs = s.obs := rfl

/-- The wraparound as one update of `pc`. -/
theorem State.wrapPc_eq : s.wrapPc = { s with pc := if s.pc = pcWrap then 0#6 else s.pc } := by
  unfold State.wrapPc
  split <;> rfl

@[simp] theorem State.wrapPc_regs : s.wrapPc.regs = s.regs := by simp [State.wrapPc_eq]
@[simp] theorem State.wrapPc_z : s.wrapPc.z = s.z := by simp [State.wrapPc_eq]
@[simp] theorem State.wrapPc_pc : s.wrapPc.pc = if s.pc = pcWrap then 0#6 else s.pc := by simp [State.wrapPc_eq]
@[simp] theorem State.wrapPc_cyc : s.wrapPc.cyc = s.cyc := by simp [State.wrapPc_eq]
@[simp] theorem State.wrapPc_status : s.wrapPc.status = s.status := by simp [State.wrapPc_eq]
@[simp] theorem State.wrapPc_store : s.wrapPc.store = s.store := by simp [State.wrapPc_eq]
@[simp] theorem State.wrapPc_progLen : s.wrapPc.progLen = s.progLen := by simp [State.wrapPc_eq]
@[simp] theorem State.wrapPc_budget : s.wrapPc.budget = s.budget := by simp [State.wrapPc_eq]
@[simp] theorem State.wrapPc_disasm : s.wrapPc.disasm = s.disasm := by simp [State.wrapPc_eq]
@[simp] theorem State.wrapPc_obs : s.wrapPc.obs = s.obs := by simp [State.wrapPc_eq]

variable (c : Params) (n : Instr)

@[simp] theorem State.finishStep_regs : (s.finishStep c n).regs = s.regs := s.wrapPc_regs
@[simp] theorem State.finishStep_z : (s.finishStep c n).z = s.z := s.wrapPc_z
@[simp] theorem State.finishStep_pc : (s.finishStep c n).pc = if s.pc = pcWrap then 0#6 else s.pc := s.wrapPc_pc
@[simp] theorem State.finishStep_cyc : (s.finishStep c n).cyc = s.cyc + 1 := congrArg (· + 1) s.wrapPc_cyc
@[simp] theorem State.finishStep_status : (s.finishStep c n).status = s.status := s.wrapPc_status
@[simp] theorem State.finishStep_store : (s.finishStep c n).store = s.store := s.wrapPc_store
@[simp] theorem State.finishStep_progLen : (s.finishStep c n).progLen = s.progLen := s.wrapPc_progLen
@[simp] theorem State.finishStep_budget : (s.finishStep c n).budget = s.budget := s.wrapPc_budget
@[simp] theorem State.finishStep_disasm : (s.finishStep c n).disasm = s.disasm := s.wrapPc_disasm
@[simp] theorem State.finishStep_obs : (s.finishStep c n).obs = s.obs ++ [s.wrapPc.observe c n] :=
  congrArg (· ++ [s.wrapPc.observe c n]) s.wrapPc_obs

@[simp] theorem State.raiseOverrun_regs : s.raiseOverrun.regs = s.regs := rfl
@[simp] theorem State.raiseOverrun_z : s.raiseOverrun.z = s.z := rfl
@[simp] theorem State.raiseOverrun_pc : s.raiseOverrun.pc = s.pc := rfl
@[simp] theorem State.raiseOverrun_cyc : s.raiseOverrun.cyc = s.cyc := rfl
@[simp] theorem State.raiseOverrun_status : s.raiseOverrun.status = .overrun := rfl
@[simp] theorem State.raiseOverrun_store : s.raiseOverrun.store = s.store := rfl
@[simp] theorem State.raiseOverrun_progLen : s.raiseOverrun.progLen = s.progLen := rfl
@[simp] theorem State.raiseOverrun_budget : s.raiseOverrun.budget = s.budget := rfl
@[simp] theorem State.raiseOverrun_disasm : s.raiseOverrun.disasm = s.disasm := rfl
@[simp] theorem State.raiseOverrun_obs : s.raiseOverrun.obs = s.obs := rfl

@[simp] theorem State.fresh_fresh : s.fresh.fresh = s.fresh := rfl

end Updates

end Sys2Proof.Machine
end

