-- ==== Sys2Proof/Laws/Ops.lean ====
section
/-! SUPPORT. What the shared operations and the four meanings can do, said once. -/

namespace Sys2Proof.Machine

theorem pc_ne_wrap {a : Addr} (h : a.toNat ≤ 62) : a ≠ pcWrap := by
  rintro rfl
  simp [pcWrap] at h

theorem pc_le_of_ne_wrap {a : Addr} (h : a ≠ pcWrap) : a.toNat ≤ 62 := by
  by_contra hc
  have : a.toNat < 64 := a.isLt
  exact h (BitVec.eq_of_toNat_eq (by simp [pcWrap]; omega))

/-- After the wraparound a pc is at most 62 (R15). -/
theorem wrapped_pc_le (a : Addr) : (if a = pcWrap then 0#6 else a).toNat ≤ 62 := by
  split
  · simp
  · exact pc_le_of_ne_wrap ‹_›

/-- `withinStep` answers a next state exactly from `pc ≠ 63`, and then it is the update's. -/
theorem State.withinStep_next_iff {s t : State} {k : State → State} :
    s.withinStep k = .next t ↔ s.pc ≠ pcWrap ∧ k s = t := by
  unfold State.withinStep
  split <;> simp [*]

theorem State.withinStep_of_le {s : State} (k : State → State) (h : s.pc.toNat ≤ 62) :
    s.withinStep k = .next (k s) :=
  State.withinStep_next_iff.2 ⟨pc_ne_wrap h, rfl⟩

/-- What `writeResult` can do. -/
theorem State.writeResult_next_iff {s t : State} {rd : Reg} {v : Byte} :
    s.writeResult rd v = .next t ↔
      s.pc ≠ pcWrap ∧ { s with regs := s.regs.set rd v, z := zeroFlag v, pc := s.pc + 1#6 } = t :=
  State.withinStep_next_iff

/-- What BNZ can do. -/
theorem execBnz_next_iff {s t : State} {addr : Addr} :
    execBnz addr s = .next t ↔
      s.pc ≠ pcWrap ∧ { s with pc := if branchTaken s.z then branchTarget addr else s.pc + 1#6 } = t := by
  unfold execBnz
  rw [State.withinStep_next_iff]
  cases branchTaken s.z <;> rfl

/-- The value an instruction computes for its destination, from the state before it (R80 (a)); 0 for BNZ, which has
none. -/
def resultOf (i : Instr) (s : State) : Byte :=
  match i with
  | .add _ rn rm => s.source rn + s.source rm
  | .and _ rn rm => s.source rn &&& s.source rm
  | .not _ rn => ~~~ s.source rn
  | .bnz _ => 0

/-- One case analysis of `exec`: an instruction with a destination writes its result there, sets the flag from it
and advances; BNZ only moves the pc. No instruction faults. -/
theorem exec_cases (i : Instr) (s : State) :
    (∃ rd, i.dest = some rd ∧ exec i s = s.writeResult rd (resultOf i s)) ∨
    (∃ addr, i = .bnz addr ∧ exec i s = execBnz addr s) := by
  cases i with
  | add rd rn rm => exact .inl ⟨rd, rfl, rfl⟩
  | and rd rn rm => exact .inl ⟨rd, rfl, rfl⟩
  | not rd rn => exact .inl ⟨rd, rfl, rfl⟩
  | bnz addr => exact .inr ⟨addr, rfl, rfl⟩

/-- What no instruction changes (R12, R26, R31). -/
theorem exec_keeps {i : Instr} {s t : State} (h : exec i s = .next t) :
    t.cyc = s.cyc ∧ t.status = s.status ∧ t.store = s.store ∧ t.progLen = s.progLen ∧ t.budget = s.budget ∧
      t.disasm = s.disasm ∧ t.obs = s.obs := by
  obtain ⟨rd, -, he⟩ | ⟨addr, -, he⟩ := exec_cases i s
  · obtain ⟨-, rfl⟩ := State.writeResult_next_iff.1 (he ▸ h)
    exact ⟨rfl, rfl, rfl, rfl, rfl, rfl, rfl⟩
  · obtain ⟨-, rfl⟩ := execBnz_next_iff.1 (he ▸ h)
    exact ⟨rfl, rfl, rfl, rfl, rfl, rfl, rfl⟩

/-- An instruction never faults; it is refused only from `pc = 63`. -/
theorem exec_next_of_ne (i : Instr) {s : State} (h : s.pc ≠ pcWrap) : ∃ t, exec i s = .next t := by
  obtain ⟨rd, -, he⟩ | ⟨addr, -, he⟩ := exec_cases i s
  · exact ⟨_, he.trans (State.writeResult_next_iff.2 ⟨h, rfl⟩)⟩
  · exact ⟨_, he.trans (execBnz_next_iff.2 ⟨h, rfl⟩)⟩

end Sys2Proof.Machine
end

