-- ==== Sys2Proof/Laws/Engine.lean ====
section
/-! SUPPORT. What one step and one clock of the engine can do, said once. -/

namespace Sys2Proof.Machine

/-- An instruction run from `pc ≠ 63` completes with its own next state finished. -/
theorem runInstr_of_next {c : Params} {i : Instr} {s t : State} (h : exec i s = .next t) :
    runInstr c i s = .next (t.finishStep c i) := by
  simp [runInstr, h]

theorem runInstr_next {c : Params} {i : Instr} {s u : State} (h : runInstr c i s = .next u) :
    ∃ t, exec i s = .next t ∧ u = t.finishStep c i := by
  unfold runInstr at h
  split at h
  · exact ⟨_, ‹_›, by simpa using h.symm⟩
  · cases h
  · cases h

/-- A step that completes: it ran the decoded byte at `pc`, from `pc ≤ 62` below N (R96). -/
theorem stepOnce_next {c : Params} {s u : State} (h : stepOnce c s = .next u) :
    s.pc ≠ pcWrap ∧ s.pc.toNat < s.progLen ∧
      ∃ b i t, s.fetch = some b ∧ decodeAs c.notRm b = .ok i ∧ exec i s = .next t ∧ u = t.finishStep c i := by
  unfold stepOnce at h
  split at h
  · cases h
  · split at h
    · cases h
    · split at h
      · cases h
      · split at h
        · cases h
        · obtain ⟨t, h1, h2⟩ := runInstr_next h
          exact ⟨‹_›, by omega, _, _, t, ‹_›, ‹_›, h1, h2⟩

/-- A step below N on a loaded slot, in terms of its instruction. -/
theorem stepOnce_eq_runInstr {c : Params} {s : State} {b : Byte} {i : Instr} (hpc : s.pc ≠ pcWrap)
    (hN : s.pc.toNat < s.progLen) (hb : s.fetch = some b) (hd : decodeAs c.notRm b = .ok i) :
    stepOnce c s = runInstr c i s := by
  simp [stepOnce, hpc, Nat.not_le.2 hN, hb, hd]

/-- The overrun check comes before the fetch (R110). -/
theorem stepOnce_overrun (c : Params) {s : State} (hpc : s.pc ≠ pcWrap) (hN : s.progLen ≤ s.pc.toNat) :
    stepOnce c s = .fault s.overrunFault := by
  simp [stepOnce, hpc, hN]

/-- A step raises `ProgramOverrun` only at `pc >= N`. -/
theorem stepOnce_overrun_only {c : Params} {s : State} {p : Addr} {n : Nat}
    (h : stepOnce c s = .fault (.programOverrun p n)) : s.pc ≠ pcWrap ∧ s.progLen ≤ s.pc.toNat := by
  unfold stepOnce at h
  split at h
  · cases h
  · split at h
    · exact ⟨‹_›, ‹_›⟩
    · split at h
      · cases h
      · split at h
        · cases h
        · rename_i i _
          obtain ⟨t, ht⟩ := exec_next_of_ne i ‹s.pc ≠ pcWrap›
          rw [runInstr_of_next ht] at h
          cases h

/-- What a completed step leaves unchanged, and how it counts (R24, R26). -/
theorem stepOnce_keeps {c : Params} {s u : State} (h : stepOnce c s = .next u) :
    u.cyc = s.cyc + 1 ∧ u.status = s.status ∧ u.store = s.store ∧ u.progLen = s.progLen ∧
      u.budget = s.budget ∧ u.disasm = s.disasm ∧ u.pc.toNat ≤ 62 := by
  obtain ⟨-, -, b, i, t, -, -, ht, rfl⟩ := stepOnce_next h
  obtain ⟨h1, h2, h3, h4, h5, h6, -⟩ := exec_keeps ht
  refine ⟨by simp [h1], by simp [h2], by simp [h3], by simp [h4], by simp [h5], by simp [h6], ?_⟩
  rw [State.finishStep_pc]
  exact wrapped_pc_le t.pc

/-- What a clock that answers a next state did: nothing (Idle, Done), ended the run, or completed a step. -/
theorem engineStep_next {c : Params} {s u : State} (h : engineStep c s = .next u) :
    (s.status ≠ .running ∧ s.status ≠ .overrun ∧ u = s) ∨
    (s.status = .running ∧ s.budget ≤ s.cyc ∧ u = { s with status := .done }) ∨
    (s.status = .running ∧ s.cyc < s.budget ∧ stepOnce c s = .next u) := by
  unfold engineStep at h
  split at h
  · rename_i hs
    exact .inl ⟨by simp [hs], by simp [hs], by simpa using h.symm⟩
  · rename_i hs
    exact .inl ⟨by simp [hs], by simp [hs], by simpa using h.symm⟩
  · cases h
  · split at h
    · exact .inr (.inl ⟨‹_›, ‹_›, by simpa using h.symm⟩)
    · exact .inr (.inr ⟨‹_›, by omega, h⟩)

/-- In a run with budget left, a clock is a step. -/
theorem engineStep_running {c : Params} {s : State} (h : s.status = .running) (hb : s.cyc < s.budget) :
    engineStep c s = stepOnce c s := by
  simp [engineStep, h, Nat.not_le.2 hb]

/-- Running the core one clock more: the step first, then the rest. -/
theorem core_run_succ (k : Nat) (s : State) :
    core.run (k + 1) s =
      (match step s with
       | .next t => core.run k t
       | .fault r => .fault r
       | .refused r => .refused r : Host.Outcome State Fault Refusal) := by
  have e : step s = core.step s := rfl
  rw [e]
  cases h : core.step s <;> (simp only [Host.Core.run, h]; try rfl)

end Sys2Proof.Machine
end

