-- ==== Sys2Proof/Laws/Memory.lean ====
section
/-! SUPPORT. The program store: read after write, and that every operation keeps the canonical form. -/

namespace Sys2Proof.Machine

@[simp] theorem Memory.read_write_same (m : Memory) (k : Nat) (b : Byte) : (m.write k b).read k = some b := by
  induction m with
  | nil => simp [Memory.write, Memory.read]
  | cons e m ih =>
    obtain ⟨a, v⟩ := e
    simp only [Memory.write]
    split
    · simp [Memory.read]
    · split
      · rename_i h
        simp [Memory.read, h]
      · rename_i h
        simpa [Memory.read, h] using ih

theorem Memory.read_write_other (m : Memory) {k j : Nat} (b : Byte) (h : j ≠ k) :
    (m.write k b).read j = m.read j := by
  induction m with
  | nil => simp [Memory.write, Memory.read, h]
  | cons e m ih =>
    obtain ⟨a, v⟩ := e
    simp only [Memory.write]
    split
    · simp [Memory.read, h]
    · split
      · rename_i hka
        simp [Memory.read, ← hka, h]
      · simp only [Memory.read]
        split
        · rfl
        · exact ih

theorem Memory.risesFrom_write {lo : Nat} {m : Memory} {k : Nat} (b : Byte) (hm : Memory.risesFrom lo m = true)
    (hlo : lo ≤ k) (hk : k < progSlots) : Memory.risesFrom lo (m.write k b) = true := by
  induction m generalizing lo with
  | nil => simp [Memory.write, Memory.risesFrom, hlo, hk]
  | cons e m ih =>
    obtain ⟨a, v⟩ := e
    simp only [Memory.risesFrom, Bool.and_eq_true, decide_eq_true_eq] at hm
    obtain ⟨⟨h1, h2⟩, h3⟩ := hm
    simp only [Memory.write]
    split
    · rename_i hka
      simp [Memory.risesFrom, hlo, hk, h2, h3, Nat.succ_le_of_lt hka]
    · split
      · simp [Memory.risesFrom, h1, h2, h3]
      · simp only [Memory.risesFrom, Bool.and_eq_true, decide_eq_true_eq]
        exact ⟨⟨h1, h2⟩, ih h3 (by omega)⟩

/-- A write to a slot keeps the canonical form. -/
theorem Memory.wf_write {m : Memory} {k : Nat} (b : Byte) (hm : m.wf = true) (hk : k < progSlots) :
    (m.write k b).wf = true :=
  Memory.risesFrom_write b hm (Nat.zero_le k) hk

/-- Loading an image that fits keeps the canonical form. -/
theorem Memory.wf_load {m : Memory} {image : List Byte} {base : Nat} (hm : m.wf = true)
    (h : base + image.length ≤ progSlots) : (m.load base image).wf = true := by
  induction image generalizing m base with
  | nil => exact hm
  | cons b bs ih =>
    simp only [List.length_cons] at h
    exact ih (Memory.wf_write b hm (by omega)) (by omega)

theorem Memory.read_load_below (m : Memory) (image : List Byte) {base a : Nat} (h : a < base) :
    (m.load base image).read a = m.read a := by
  induction image generalizing m base with
  | nil => rfl
  | cons b bs ih =>
    simp only [Memory.load]
    rw [ih _ (Nat.lt_succ_of_lt h), Memory.read_write_other _ _ (Nat.ne_of_lt h)]

theorem Memory.wf_reset : State.reset.store.wf = true := rfl

end Sys2Proof.Machine
end

