-- ==== Sys2Proof/Laws/PerInstr.lean ====
section
/-! SUPPORT. One lemma per instruction: its field set keeps the codec's contract and stands for it (R48, D11, D12). -/

namespace Sys2Proof.Laws.Fields

/-- The instruction's fields are exactly those of its opcode, in range, and give the instruction back. -/
def Statement (i : Instr) : Prop :=
  i.wellFormed = true ∧ i.fields.op = i.opcode ∧ i.fields.toInstr = .ok i

theorem add (rd rn rm : Reg) : Statement (.add rd rn rm) := by
  refine ⟨?_, rfl, ?_⟩ <;> cases rd <;> cases rn <;> cases rm <;> rfl

theorem and (rd rn rm : Reg) : Statement (.and rd rn rm) := by
  refine ⟨?_, rfl, ?_⟩ <;> cases rd <;> cases rn <;> cases rm <;> rfl

theorem not (rd rn : Reg) : Statement (.not rd rn) := by
  refine ⟨?_, rfl, ?_⟩ <;> cases rd <;> cases rn <;> rfl

theorem bnz (addr : Addr) : Statement (.bnz addr) := by
  have hlt : addr.toNat < 64 := addr.isLt
  have hcheck : (Instr.bnz addr).fields.check = none := by
    simp [Instr.fields, FieldSet.check, checkField, checkAbsent, hlt]
  refine ⟨by simp [Instr.wellFormed, FieldSet.wellFormed, hcheck], rfl, ?_⟩
  have hback : BitVec.ofNat 6 addr.toNat = addr := by simp
  simp only [FieldSet.toInstr, hcheck]
  simp [Instr.fields, hback]

end Sys2Proof.Laws.Fields
end

