-- ==== Sys2Proof/Tests/Slice0.lean ====
section
/-! SUPPORT. The model's own tests: expected values from spec/95_test_vectors.md (S, A, B, W, Z, P) or worked out from
the cited rule; a smoke test for each well-formedness check; a witness for each statement that has hypotheses. -/

namespace Sys2Proof.Tests

open Sys2Proof Sys2Proof.Machine

/-- A running state: N = `n`, the byte `b` in the slot at `pc`, budget 20, nothing executed. -/
def stateAt (pc : Addr) (n : Nat) (b : Byte) (z : Bool) (x0 x1 x2 x3 : Byte) : State :=
  { State.reset with
    pc := pc, z := z, regs := ⟨x0, x1, x2, x3⟩, status := .running, store := [(pc.toNat, b)], progLen := n }

/-- The next state of an outcome, if it has one. -/
def nextOf : Host.Outcome State Fault Refusal → Option State
  | .next s => some s
  | .fault _ => none
  | .refused _ => none

/-- pc, flag and registers of a next state. -/
def seen (o : Host.Outcome State Fault Refusal) : Option (Addr × Bool × Regs) :=
  (nextOf o).map fun s => (s.pc, s.z, s.regs)

/-! ## Well-formedness: an ill-formed term for each check -/

theorem smoke_missing : (⟨.add, some 1, none, some 0, none⟩ : FieldSet).check = some .missing := by decide
theorem smoke_extra : (⟨.not, some 1, some 0, some 0, none⟩ : FieldSet).check = some .extra := by decide
theorem smoke_register_range : (⟨.and, some 4, some 0, some 0, none⟩ : FieldSet).check = some .registerRange := by decide
theorem smoke_address_range : (⟨.bnz, none, none, none, some 64⟩ : FieldSet).check = some .addressRange := by decide
theorem smoke_well_formed : (⟨.bnz, none, none, none, some 63⟩ : FieldSet).wellFormed = true := by decide

/-! ## Decoding, words written from the layout of R46 and R47 (95 section 2.1) -/

theorem test_decode_add : decodeByte 0b00101101#8 = .add .r1 .r2 .r3 := by decide
theorem test_decode_add_in_place : decodeByte 0b00100110#8 = .add .r2 .r2 .r1 := by decide
theorem test_decode_and : decodeByte 0b01110010#8 = .and .r2 .r3 .r0 := by decide
theorem test_decode_not : decodeByte 0b10110000#8 = .not .r0 .r3 := by decide
theorem test_decode_not_reserved : decodeByte 0b10011100#8 = .not .r0 .r1 := by decide
theorem test_decode_bnz : decodeByte 0b11100000#8 = .bnz 32#6 := by decide
theorem test_encode_add : encode (.add .r1 .r2 .r3) = 0x2D#8 := by decide
theorem test_encode_not : encode (.not .r0 .r3) = 0xB0#8 := by decide
theorem test_decode_reserved_faults : decodeAs .fault 0x9C#8 = .error (.notReservedBits 0x9C#8) := rfl

/-! ## Instructions: A3, A7; A12, A13; A20, A21; B2, B10 -/

theorem test_add_wraps : seen (exec (.add .r2 .r0 .r1) (stateAt 4#6 64 0x06#8 false 0xFF#8 0x01#8 0x77#8 0x33#8)) =
    some (5#6, true, ⟨0xFF#8, 0x01#8, 0x00#8, 0x33#8⟩) := by decide
theorem test_add_in_place : seen (exec (.add .r3 .r3 .r3) (stateAt 0#6 64 0x3F#8 true 0#8 0#8 0#8 0x81#8)) =
    some (1#6, false, ⟨0#8, 0#8, 0#8, 0x02#8⟩) := by decide
theorem test_and_document : seen (exec (.and .r0 .r0 .r1) (stateAt 1#6 64 0x44#8 false 0xFF#8 0#8 1#8 2#8)) =
    some (2#6, true, ⟨0#8, 0#8, 1#8, 2#8⟩) := by decide
theorem test_and_disjoint : seen (exec (.and .r2 .r0 .r1) (stateAt 0#6 64 0x46#8 false 0xAA#8 0x55#8 9#8 9#8)) =
    some (1#6, true, ⟨0xAA#8, 0x55#8, 0#8, 9#8⟩) := by decide
theorem test_not_zero : seen (exec (.not .r0 .r1) (stateAt 0#6 64 0x90#8 false 7#8 0xFF#8 0#8 0#8)) =
    some (1#6, true, ⟨0#8, 0xFF#8, 0#8, 0#8⟩) := by decide
theorem test_not_in_place : seen (exec (.not .r2 .r2) (stateAt 0#6 64 0xA2#8 true 0#8 0#8 0xA5#8 0#8)) =
    some (1#6, false, ⟨0#8, 0#8, 0x5A#8, 0#8⟩) := by decide
theorem test_bnz_not_taken : seen (exec (.bnz 4#6) (stateAt 5#6 64 0xC4#8 true 1#8 2#8 3#8 4#8)) =
    some (6#6, true, ⟨1#8, 2#8, 3#8, 4#8⟩) := by decide
theorem test_bnz_taken : seen (exec (.bnz 5#6) (stateAt 62#6 64 0xC5#8 false 1#8 2#8 3#8 4#8)) =
    some (5#6, false, ⟨1#8, 2#8, 3#8, 4#8⟩) := by decide

/-! ## Steps: W3, W7, B6, B9, Z3, U1, U4 -/

theorem test_step_wraps_before_overrun : seen (step (stateAt 62#6 63 0x00#8 false 0#8 0#8 0#8 0#8)) =
    some (0#6, true, ⟨0#8, 0#8, 0#8, 0#8⟩) := by decide
theorem test_step_bnz_63 : seen (step (stateAt 10#6 64 0xFF#8 false 0#8 0#8 0#8 0#8)) =
    some (0#6, false, ⟨0#8, 0#8, 0#8, 0#8⟩) := by decide
theorem test_step_bnz_not_taken_stateAt62 : seen (step (stateAt 62#6 64 0xC5#8 true 0#8 0#8 0#8 0#8)) =
    some (0#6, true, ⟨0#8, 0#8, 0#8, 0#8⟩) := by decide
theorem test_step_overrun : step (stateAt 3#6 3 0x00#8 false 0#8 0#8 0#8 0#8) = .fault (.programOverrun 3#6 3) := rfl
theorem test_overrun_state : (tick params (stateAt 3#6 3 0x00#8 false 1#8 2#8 3#8 4#8)).status = .overrun := by decide
theorem test_step_from_63 : step (stateAt 63#6 64 0x00#8 false 0#8 0#8 0#8 0#8) = .refused .stepFrom63 := rfl
theorem test_step_not_loaded : step { stateAt 3#6 4 0#8 false 0#8 0#8 0#8 0#8 with store := [] } =
    .refused (.slotNotLoaded 3#6) := rfl
theorem test_reserved_not_runs : seen (step (stateAt 0#6 1 0x9C#8 true 0#8 0x0F#8 0#8 0x77#8)) =
    some (1#6, false, ⟨0xF0#8, 0x0F#8, 0#8, 0x77#8⟩) := by decide
theorem test_reserved_not_faults : stepOnce ⟨.fault, 1⟩ (stateAt 0#6 1 0x9C#8 true 0#8 0x0F#8 0#8 0x77#8) =
    .fault (.reservedNotBits 0x9C#8) := rfl

/-- The first instruction after reset (Z3), placed by `withFetchWord`. -/
theorem test_first_instruction : seen (step (State.reset.withFetchWord 8 0x81)) =
    some (1#6, false, ⟨0#8, 0xFF#8, 0#8, 0#8⟩) := by decide
theorem test_table_word : decodeTableWord 8 0x81 = some (.not .r1 .r0) := by decide

/-- The first observation of P1: index 1, state after the step, with its disassembly where asked for. -/
theorem test_observation : (nextOf (step (bootState [0x90#8, 0x44#8, 0x81#8] none true))).map State.obs =
    some [⟨1, 1#6, false, ⟨0xFF#8, 0#8, 0#8, 0#8⟩, .not .r0 .r1,
      some ['n', 'o', 't', ' ', 'r', '0', ' ', 'r', '1']⟩] := by decide
theorem test_observation_text : Obs.fieldTexts ⟨12, 0x3E#6, true, ⟨0xC3#8, 0xFF#8, 0#8, 0x0A#8⟩, .bnz 62#6, none⟩ =
    [['1', '2'], ['3', 'E'], ['1'], ['C', '3'], ['F', 'F'], ['0', '0'], ['0', 'A']] := by decide

/-! ## Tools: P1, P6, S6, S7, and a listing (R68) -/

theorem test_object_file : objectFile [0x90#8, 0x44#8, 0x81#8] =
    [['v', '2', '.', '0', ' ', 'r', 'a', 'w'], ['9', '0'], ['4', '4'], ['8', '1']] := by decide
theorem test_loader_lower_case : loadObject [objectMarker, ['c', '0']] = .error .badFormat := rfl
theorem test_assemble_forward_label : assemble
    ["not r0 r1  ; r0 <- FF, Z = 0".toList, "bnz skip".toList, "and r0 r1 r1".toList,
     "skip:   ; label-only line: no address; a colon here: is harmless".toList, "ADD r2 r0 r0".toList,
     "end: bnz end".toList] = .ok [0x90#8, 0xC3#8, 0x54#8, 0x02#8, 0xC4#8] := by rfl
theorem test_duplicate_label : assemble ["loop: not r0 r0".toList, "loop: bnz loop".toList] =
    .error (.duplicateLabel "loop".toList) := by rfl
theorem test_unknown_label : assemble ["bnz missing".toList] = .error (.unknownLabel "missing".toList) := by rfl
theorem test_comma_is_no_separator : assemble ["add r0, r1 r2".toList] =
    .error (.invalidMnemonicOrRegister "r0,".toList) := by rfl
theorem test_operand_count : assemble ["not r0".toList] = .error (.operandCount "not".toList) := by rfl
theorem test_listing : listing ["loop: bnz loop".toList] = .ok ["loop\t00".toList, "00:C0\tbnz loop".toList] := by rfl

/-! ## Witnesses: a concrete input meeting all the hypotheses of each statement that has any -/

theorem witness_EncodeLayoutAndImage : encode (.not .r3 .r3) = encode (.not .r3 .r3) := rfl
theorem witness_DecodeLayout : (0x00#8).toNat / 64 = 0 ∧ (0x3F#8).toNat / 64 = 0 ∧ (0x40#8).toNat / 64 = 1 ∧
    (0x7F#8).toNat / 64 = 1 ∧ (0x80#8).toNat / 64 = 2 ∧ (0xBF#8).toNat / 64 = 2 ∧ (0xC0#8).toNat / 64 = 3 ∧
    (0xFF#8).toNat / 64 = 3 := by decide
theorem witness_ReencodeClearsNotBits :
    ¬ ((0x83#8).toNat / 64 = 2 ∧ (0x83#8).toNat / 4 % 4 ≠ 0) ∧
    ((0x84#8).toNat / 64 = 2 ∧ (0x84#8).toNat / 4 % 4 ≠ 0) := by decide
theorem witness_ReservedNotByteTreatments :
    let s := stateAt 62#6 63 0xBF#8 false 0#8 0#8 0#8 0#8
    s.pc.toNat ≤ 62 ∧ s.pc.toNat < s.progLen ∧ s.store.read s.pc.toNat = some 0xBF#8 ∧
      (0xBF#8).toNat / 64 = 2 ∧ (0xBF#8).toNat / 4 % 4 ≠ 0 := by decide
theorem witness_CodecPortsAreTheCodec :
    (unpack 0x3F#8).rnRdValid = true ∧ (unpack 0x40#8).rmValid = true ∧ (unpack 0xFF#8).addrValid = true ∧
    (⟨2#2, 1#2, 2#2, 3#2, 63#6⟩ : PackIn).op = 2#2 ∧ (⟨1#2, 1#2, 2#2, 3#2, 63#6⟩ : PackIn).op ≠ 3#2 ∧
    (⟨3#2, 1#2, 2#2, 3#2, 63#6⟩ : PackIn).op = 3#2 := by decide
theorem witness_AddResult : (stateAt 62#6 64 0x26#8 false 1#8 2#8 3#8 4#8).pc.toNat ≤ 62 := by decide
theorem witness_AndResult : (stateAt 62#6 64 0x44#8 true 1#8 2#8 3#8 4#8).pc.toNat ≤ 62 := by decide
theorem witness_NotResult : (stateAt 62#6 64 0x90#8 true 1#8 2#8 3#8 4#8).pc.toNat ≤ 62 ∧
    0x80 ≤ (0x80#8).toNat ∧ (0x80#8).toNat ≤ 0xBF ∧ 0x80 ≤ (0xBF#8).toNat ∧ (0xBF#8).toNat ≤ 0xBF := by decide
theorem witness_BnzResult :
    let s := stateAt 62#6 62 0xFE#8 false 1#8 2#8 3#8 4#8
    s.pc.toNat ≤ 62 ∧ s.z = false ∧ s.progLen ≤ (62#6).toNat ∧ (62#6).toNat ≤ 62 ∧
      LabelTable.find [(['e'], 62)] ['e'] = some (62#6).toNat := by decide
theorem witness_AluFrame : (Instr.add .r2 .r2 .r1).dest = some .r2 ∧
    ∃ t, exec (.add .r2 .r2 .r1) (stateAt 62#6 64 0x26#8 false 1#8 2#8 3#8 4#8) = .next t := ⟨rfl, _, rfl⟩
theorem witness_BnzFrame : ∃ t, exec (.bnz 63#6) (stateAt 62#6 64 0xFF#8 false 1#8 2#8 3#8 4#8) = .next t := ⟨_, rfl⟩
theorem witness_ZeroFlagWritersAndReaders :
    (∃ t, exec (.not .r0 .r1) (stateAt 62#6 64 0x90#8 true 1#8 0xFF#8 3#8 4#8) = .next t) ∧
    (∃ t, exec (.bnz 63#6) (stateAt 0#6 64 0xFF#8 true 1#8 2#8 3#8 4#8) = .next t) := ⟨⟨_, rfl⟩, ⟨_, rfl⟩⟩
theorem witness_RegisterReadsAndWrites :
    let s := stateAt 0#6 64 0x90#8 false 1#8 2#8 3#8 4#8
    let s' := stateAt 0#6 64 0x90#8 false 9#8 2#8 9#8 9#8
    (∃ t t', exec (.not .r0 .r1) s = .next t ∧ exec (.not .r0 .r1) s' = .next t') ∧ s.pc = s'.pc ∧ s.z = s'.z ∧
      (∀ r ∈ (Instr.not .r0 .r1).sources, s.regs.get r = s'.regs.get r) ∧
      (Instr.not .r0 .r1).dest ≠ some .r1 ∧
      ∃ t, engineStep params { s with status := .done } = .next t ∧ t.cyc = s.cyc :=
  ⟨⟨_, _, rfl, rfl⟩, rfl, rfl, by decide, by decide, _, rfl, rfl⟩
theorem witness_AddAsSignedAddition :
    ∃ t, exec (.add .r2 .r0 .r1) (stateAt 0#6 64 0x06#8 false 0x80#8 0x80#8 0#8 0#8) = .next t := ⟨_, rfl⟩
theorem witness_Idioms :
    let s := stateAt 60#6 64 0#8 false 0#8 0xFF#8 0x01#8 0x5A#8
    (∃ t, exec (.and .r0 .r3 .r3) s = .next t) ∧ (∃ t, exec (.and .r3 .r3 .r3) s = .next t) ∧
    (s.regs.get .r0 = 0#8 ∧ ∃ t, exec (.not .r3 .r0) s = .next t) ∧
    (s.regs.get .r1 = 0xFF#8 ∧ ∃ t u, exec (.add .r3 .r1 .r1) s = .next t ∧ exec (.not .r3 .r3) t = .next u) ∧
    (s.regs.get .r1 = 0xFF#8 ∧ ∃ t, exec (.add .r3 .r3 .r1) s = .next t) ∧
    (∃ t, exec (.add .r3 .r3 .r3) s = .next t) ∧
    (s.regs.get .r2 = 0x01#8 ∧ Reg.r0 ≠ .r2 ∧
      ∃ t w, exec (.not .r0 .r3) s = .next t ∧ exec (.add .r0 .r0 .r2) t = .next w) ∧
    (Reg.r2 ≠ .r3 ∧ ∃ t w, exec (.not .r2 .r3) s = .next t ∧ exec (.and .r3 .r3 .r2) t = .next w) :=
  ⟨⟨_, rfl⟩, ⟨_, rfl⟩, ⟨rfl, _, rfl⟩, ⟨rfl, _, _, rfl, rfl⟩, ⟨rfl, _, rfl⟩, ⟨_, rfl⟩,
    ⟨rfl, by decide, _, _, rfl, rfl⟩, ⟨by decide, _, _, rfl, rfl⟩⟩
theorem witness_StepRunsDecodedInstruction :
    let s := stateAt 62#6 63 0xA2#8 false 1#8 2#8 3#8 4#8
    s.status = .running ∧ s.cyc < s.budget ∧ s.pc.toNat ≤ 62 ∧ s.pc.toNat < s.progLen ∧
      s.store.read s.pc.toNat = some 0xA2#8 := by decide
theorem witness_PostStepWraparound :
    (stateAt 62#6 63 0xA2#8 false 1#8 2#8 3#8 4#8).pc.toNat ≤ 62 ∧
    (∃ t, exec (.not .r2 .r2) (stateAt 62#6 63 0xA2#8 false 1#8 2#8 3#8 4#8) = .next t ∧ t.pc = 63#6) ∧
    (∃ t, exec (.bnz 63#6) (stateAt 10#6 63 0xFF#8 false 1#8 2#8 3#8 4#8) = .next t ∧ t.pc = 63#6) ∧
    (∃ t, exec (.not .r2 .r2) (stateAt 61#6 63 0xA2#8 false 1#8 2#8 3#8 4#8) = .next t ∧ t.pc ≠ 63#6) :=
  ⟨by decide, ⟨_, rfl, by decide⟩, ⟨_, rfl, by decide⟩, ⟨_, rfl, by decide⟩⟩
theorem witness_OverrunExactlyAtLength :
    let s := stateAt 62#6 62 0#8 false 1#8 2#8 3#8 4#8
    (s.status = .running ∧ s.cyc < s.budget ∧ s.pc.toNat ≤ 62 ∧ s.progLen ≤ s.pc.toNat) ∧
    engineStep params s = .fault (.programOverrun 62#6 62) ∧
    engineStep params (stateAt 0#6 0 0#8 false 1#8 2#8 3#8 4#8) = .fault (.programOverrun 0#6 0) :=
  ⟨by decide, rfl, rfl⟩
theorem witness_FailingStepOnlySetsStatus :
    let s := stateAt 3#6 3 0#8 true 1#8 2#8 3#8 4#8
    s.status = .running ∧ s.cyc < s.budget ∧ s.pc.toNat ≤ 62 ∧ s.progLen ≤ s.pc.toNat := by decide
theorem witness_OverrunIsFinal :
    (tick params (stateAt 3#6 3 0#8 true 1#8 2#8 3#8 4#8)).status = .overrun ∧
    HostAction.start none false ≠ .reset := by decide
theorem witness_BudgetTestedFirst :
    let s := { stateAt 3#6 3 0#8 true 1#8 2#8 3#8 4#8 with budget := 0 }
    s.status = .running ∧ s.budget ≤ s.cyc ∧ s.progLen ≤ s.pc.toNat := by decide
theorem witness_IdleAndDoneHold : State.reset.status = .idle ∧
    ({ State.reset with status := .done } : State).status = .done := by decide
theorem witness_StepFrom63Refused : (stateAt 63#6 64 0#8 false 0#8 0#8 0#8 0#8).pc = 63#6 := by decide
theorem witness_ProgramConstantDuringRun : ∃ t, step (stateAt 62#6 64 0x55#8 true 1#8 2#8 3#8 4#8) = .next t := ⟨_, rfl⟩
theorem witness_UnreachableSlotsNeverRead :
    State.sameReachable (stateAt 0#6 1 0x91#8 false 0#8 0#8 0#8 0#8) [(0, 0x91#8), (1, 0x55#8), (63, 0xB3#8)] := by
  intro a h1 _
  have : a = 0 := by simpa [stateAt] using h1
  subst this
  decide
theorem witness_ObservationNeverFeedsBack :
    let s := stateAt 0#6 1 0x91#8 false 0#8 0#8 0#8 0#8
    let o : Obs := ⟨1, 0#6, false, ⟨0#8, 0#8, 0#8, 0#8⟩, .bnz 0#6, none⟩
    s.eraseObs = ({ s with disasm := true, obs := [o] } : State).eraseObs ∧
    ({ s with disasm := true, obs := [{ o with disasm := some ['b'] }] } : State).eraseDisasm =
      ({ s with obs := [o] } : State).eraseDisasm := by decide
theorem witness_ObservationOfEachStep :
    (∃ t, engineStep params (stateAt 0#6 1 0x91#8 false 0#8 0#8 0#8 0#8) = .next t) ∧
    ∃ t, engineStep params State.reset = .next t := ⟨⟨_, rfl⟩, ⟨_, rfl⟩⟩
theorem witness_EngineOutputs :
    (engineOut params (stateAt 62#6 63 0x91#8 false 0#8 0#8 0#8 0#8)).obsInstr = some (.not .r1 .r1) ∧
    (tick params State.reset).status = .idle ∧
    (tick params (stateAt 62#6 63 0x91#8 false 0#8 0#8 0#8 0#8)).status = .running ∧
    (tick params { stateAt 0#6 1 0#8 false 0#8 0#8 0#8 0#8 with budget := 0 }).status = .done ∧
    (tick params (stateAt 62#6 62 0x91#8 false 0#8 0#8 0#8 0#8)).status = .overrun := by decide
theorem witness_ExecutesOnlyReachableAddresses :
    ∃ t, engineStep params (stateAt 62#6 63 0x91#8 false 0#8 0#8 0#8 0#8) = .next t ∧ t.cyc ≠ 0 := ⟨_, rfl, by decide⟩
theorem witness_HostPortsOnlyInIdle :
    (stateAt 0#6 1 0#8 false 0#8 0#8 0#8 0#8).status ≠ .idle ∧ State.reset.status = .idle ∧
    HostAction.load 63#6 0xB3#8 ≠ .reset ∧ 64 ≤ 64 ∧ 64 < 65 ∧ 63 ≠ (62#6).toNat := by decide

/-- The state in which the image 0x91 begins, which meets the invariant and can step. -/
def booted : State := bootState [0x91#8] none false

theorem booted_inv (c : Params) : booted.Inv c where
  pc_le := by decide
  store_wf := by decide
  len_le := by decide
  cyc_le := by decide
  idle_fresh := by intro h; cases h
  done_spent := by intro h; cases h
  overrun_at := by intro h; cases h
  obs_numbered := rfl
  obs_shows := by intro o h; cases h
  flag_history := rfl

theorem witness_StepKeepsInvariant : booted.Inv params ∧ ∃ t, step booted = .next t := ⟨booted_inv params, _, rfl⟩
theorem witness_EventsKeepInvariant (c : Params) : booted.Inv c := booted_inv c
theorem witness_LoadedImage : 63 < 64 ∧ 64 ≤ 64 := by decide
theorem witness_LargerBudgetExtendsRun : 3 ≤ 4 := by decide
theorem witness_FullStoreNeverOverruns : 63 ≤ (List.replicate 63 0x04#8).length := by decide
theorem witness_SelfBranchSpins :
    let s := stateAt 62#6 63 0xFE#8 false 0#8 0#8 0#8 0#8
    s.pc.toNat ≤ 62 ∧ s.pc.toNat < s.progLen ∧ s.z = false ∧
      s.store.read s.pc.toNat = some (BitVec.ofNat 8 (0xC0 + s.pc.toNat)) := by decide
theorem witness_LoaderAcceptsExactlyTheFormat : loadObject [objectMarker, ['c', '0']] = .error .badFormat := rfl
theorem witness_DisassemblyReassembles :
    ∀ i ∈ [Instr.not .r0 .r1, .and .r0 .r0 .r1, .add .r1 .r2 .r3], i.opcode ≠ .bnz := by decide
theorem witness_LabelTableLaws :
    LabelTable.bind [([' ', 'b'], 0)] ['a'] 1 = .ok [([' ', 'b'], 0), (['a'], 1)] ∧
    (['c'] : Text) ≠ ['a'] ∧
    ∀ e ∈ ([([' ', 'b'], 0), (['a'], 1)] : LabelTable), e.1 ≠ ['c'] ∧ trim e.1 ≠ ['c'] := ⟨rfl, by decide, by decide⟩
theorem witness_DuplicateLabelFails :
    let src := ["loop: not r0 r0".toList, "loop:".toList]
    2 ≤ src.countP (fun l => (splitLine l).label = some "loop".toList) ∧
    ∀ l ∈ src, (splitLine l).label ≠ some [] := by decide
theorem witness_DuplicateLabelFails_empty :
    let src := ["loop: not r0 r0".toList, "loop:".toList, ": not r1 r1".toList]
    2 ≤ src.countP (fun l => (splitLine l).label = some "loop".toList) ∧
    ∃ l ∈ src, (splitLine l).label = some [] := by decide
theorem witness_AssembledLength : ∃ p, assemble ["; only a comment".toList, "not r0 r1".toList] = .ok p := ⟨_, rfl⟩

end Sys2Proof.Tests
end

section
/-! PROOFS. How the run loop goes on and ends, from a loaded program: R9's two ends of a run. -/

namespace Sys2Proof.Machine

/-! ## A loaded image -/

/-- Slot `base + k` of a loaded image holds its byte `k` (R32, R135). -/
theorem Memory.read_load (m : Memory) (base : Nat) {image : List Byte} {k : Nat} (hk : k < image.length) :
    (m.load base image).read (base + k) = some image[k] := by
  induction image generalizing m base k with
  | nil => simp at hk
  | cons b bs ih =>
    cases k with
    | zero => simp [Memory.load, Memory.read_load_below _ bs (Nat.lt_succ_self base)]
    | succ k =>
      have hbs : k < bs.length := by simpa using hk
      have hslot : base + (k + 1) = base + 1 + k := by omega
      rw [hslot]
      exact ih (m.write base b) (base + 1) hbs

@[simp] theorem bootState_store (image : List Byte) (budget : Option Nat) (d : Bool) :
    (bootState image budget d).store = State.reset.store.load 0 (image.take progSlots) := rfl
@[simp] theorem bootState_progLen (image : List Byte) (budget : Option Nat) (d : Bool) :
    (bootState image budget d).progLen = min progSlots image.length := List.length_take
@[simp] theorem bootState_pc (image : List Byte) (budget : Option Nat) (d : Bool) :
    (bootState image budget d).pc = 0#6 := rfl
@[simp] theorem bootState_cyc (image : List Byte) (budget : Option Nat) (d : Bool) :
    (bootState image budget d).cyc = 0 := rfl

/-- Booting loads every slot below N (R135). -/
theorem bootState_loaded (image : List Byte) (budget : Option Nat) (d : Bool) :
    (bootState image budget d).Loaded := by
  intro a ha
  have hk : a < (image.take progSlots).length := by simpa using ha
  rw [bootState_store, ← Nat.zero_add a]
  exact ⟨_, Memory.read_load _ 0 hk⟩

/-! ## One step of a loaded program -/

/-- From `pc ≤ 62`, below N, a step of a loaded program completes where every byte decodes (D4). -/
theorem stepOnce_completes {c : Params} {s : State} (hc : c.notRm = .ignore) (hl : s.Loaded)
    (hpc : s.pc ≠ pcWrap) (hN : s.pc.toNat < s.progLen) : ∃ t, stepOnce c s = .next t := by
  obtain ⟨b, hb⟩ := hl _ hN
  have hd : decodeAs c.notRm b = .ok (decodeByte b) := by rw [hc]; rfl
  obtain ⟨t, ht⟩ := exec_next_of_ne (decodeByte b) hpc
  exact ⟨_, (stepOnce_eq_runInstr hpc hN hb hd).trans (runInstr_of_next ht)⟩

/-- A completed step keeps the program loaded (R26, R31). -/
theorem stepOnce_keeps_loaded {c : Params} {s t : State} (h : stepOnce c s = .next t) (hl : s.Loaded) :
    t.Loaded := by
  obtain ⟨-, -, hstore, hlen, -⟩ := stepOnce_keeps h
  intro a ha
  rw [hstore]
  exact hl a (hlen ▸ ha)

/-! ## The run loop (R98) -/

@[simp] theorem runLoop_zero (c : Params) (s : State) : runLoop c 0 s = .done { s with status := .done } := rfl

theorem runLoop_succ_of_next {c : Params} {s t : State} (k : Nat) (h : stepOnce c s = .next t) :
    runLoop c (k + 1) s = runLoop c k t := by
  simp [runLoop, h]

theorem runLoop_succ_of_overrun (c : Params) {s : State} (k : Nat) (hpc : s.pc ≠ pcWrap)
    (hN : s.progLen ≤ s.pc.toNat) : runLoop c (k + 1) s = .overrun s.raiseOverrun := by
  simp [runLoop, stepOnce_overrun c hpc hN, State.overrunFault]

/-- R9's two ends of a run of `k` steps from `s`: `Done` with all of them executed, or `Overrun` at `pc >= N` with
some left. -/
def RunEnd.EndsAsR9 (k : Nat) (s : State) : RunEnd → Prop
  | .done t => t.status = .done ∧ t.cyc = s.cyc + k
  | .overrun t =>
    t.status = .overrun ∧ t.progLen = s.progLen ∧ t.progLen ≤ t.pc.toNat ∧ t.pc.toNat ≤ 62 ∧ t.cyc < s.cyc + k
  | .faulted _ _ => False
  | .refused _ _ => False

/-- The ends of the `k` steps after a completed step are ends of the `k + 1` steps that begin with it. -/
theorem RunEnd.EndsAsR9.of_next {c : Params} {s t : State} {k : Nat} {e : RunEnd} (h : stepOnce c s = .next t)
    (he : e.EndsAsR9 k t) : e.EndsAsR9 (k + 1) s := by
  obtain ⟨hcyc, -, -, hlen, -⟩ := stepOnce_keeps h
  cases e with
  | done u =>
    obtain ⟨hst, hu⟩ := he
    exact ⟨hst, by omega⟩
  | overrun u =>
    obtain ⟨hst, hlenu, hover, hpc, hu⟩ := he
    exact ⟨hst, hlenu.trans hlen, hover, hpc, by omega⟩
  | faulted _ _ => exact he
  | refused _ _ => exact he

/-- A loaded program ends in one of R9's two ways, where every byte decodes (D4): each step either completes, which
keeps `pc ≤ 62` and the program loaded, or raises `ProgramOverrun`. -/
theorem runLoop_endsAsR9 {c : Params} (hc : c.notRm = .ignore) (k : Nat) {s : State} (hl : s.Loaded)
    (hpc : s.pc.toNat ≤ 62) : (runLoop c k s).EndsAsR9 k s := by
  induction k generalizing s with
  | zero =>
    rw [runLoop_zero]
    exact ⟨rfl, rfl⟩
  | succ k ih =>
    rcases Nat.lt_or_ge s.pc.toNat s.progLen with hN | hN
    · obtain ⟨t, ht⟩ := stepOnce_completes hc hl (pc_ne_wrap hpc) hN
      obtain ⟨-, -, -, -, -, -, hpct⟩ := stepOnce_keeps ht
      rw [runLoop_succ_of_next k ht]
      exact (ih (stepOnce_keeps_loaded ht hl) hpct).of_next ht
    · rw [runLoop_succ_of_overrun c k (pc_ne_wrap hpc) hN]
      exact ⟨rfl, rfl, hN, hpc, by simp⟩

/-- A run from an image ends in one of R9's two ways, where every byte decodes. -/
theorem run_endsAsR9 {c : Params} (hc : c.notRm = .ignore) (image : List Byte) (budget : Option Nat) (d : Bool) :
    (run c image budget d).EndsAsR9 (budget.getD defaultBudget) (bootState image budget d) :=
  runLoop_endsAsR9 hc _ (bootState_loaded image budget d) (by simp)

/-- Settles O42: a run ends as R9 says, by induction on the budget. An overrun happens at `pc ≤ 62`, so N is below 64
there and the image was not cut. -/
theorem everyRunEndsDoneOrOverrun : Obligations.EveryRunEndsDoneOrOverrun := by
  intro image budget d
  have hend := run_endsAsR9 (c := params) rfl image budget d
  generalize run params image budget d = e at hend ⊢
  cases e with
  | done t =>
    obtain ⟨hst, hcyc⟩ := hend
    exact .inl ⟨t, rfl, hst, by simpa [defaultBudget] using hcyc⟩
  | overrun t =>
    obtain ⟨hst, hlen, hover, hpc, hcyc⟩ := hend
    have huncut : t.progLen = image.length := by
      rw [bootState_progLen, progSlots] at hlen
      omega
    exact .inr ⟨t, rfl, hst, hover, huncut, by simpa [defaultBudget] using hcyc⟩
  | faulted _ _ => exact False.elim hend
  | refused _ _ => exact False.elim hend

end Sys2Proof.Machine
end

section
/-! PROOFS. What an instruction reads and writes: its next state by its destination, the zero flag (R18), the registers
(R12), and the refusal from `pc = 63` (D10). -/

namespace Sys2Proof

/-- An instruction has a destination or is a BNZ (R12). -/
theorem Instr.dest_or_bnz (i : Instr) : (∃ rd, i.dest = some rd) ∨ ∃ addr, i = .bnz addr := by
  cases i with
  | add rd _ _ => exact .inl ⟨rd, rfl⟩
  | and rd _ _ => exact .inl ⟨rd, rfl⟩
  | not rd _ => exact .inl ⟨rd, rfl⟩
  | bnz addr => exact .inr ⟨addr, rfl⟩

namespace Machine

/-! ## The next state of an instruction -/

@[simp] theorem zeroFlag_eq_true_iff (v : Byte) : zeroFlag v = true ↔ v = 0#8 := by simp [zeroFlag]

/-- The result depends on the source registers alone (R12, R80). -/
theorem resultOf_congr {i : Instr} {s s' : State} (h : ∀ r ∈ i.sources, s.regs.get r = s'.regs.get r) :
    resultOf i s = resultOf i s' := by
  cases i with
  | add rd rn rm => exact congrArg₂ (· + ·) (h rn (by simp [Instr.sources])) (h rm (by simp [Instr.sources]))
  | and rd rn rm => exact congrArg₂ (· &&& ·) (h rn (by simp [Instr.sources])) (h rm (by simp [Instr.sources]))
  | not rd rn => exact congrArg (~~~ ·) (h rn (by simp [Instr.sources]))
  | bnz addr => rfl

/-- What an instruction with a destination can do. -/
theorem exec_next_iff_of_dest {i : Instr} {rd : Reg} (hd : i.dest = some rd) {s t : State} :
    exec i s = .next t ↔ s.pc ≠ pcWrap ∧
      { s with regs := s.regs.set rd (resultOf i s), z := zeroFlag (resultOf i s), pc := s.pc + 1#6 } = t := by
  obtain ⟨rd', hd', he⟩ | ⟨addr, rfl, -⟩ := exec_cases i s
  · obtain rfl : rd' = rd := Option.some.inj (hd'.symm.trans hd)
    rw [he, State.writeResult_next_iff]
  · cases hd

/-- What BNZ can do, through `exec`. -/
theorem exec_bnz_next_iff {addr : Addr} {s t : State} :
    exec (.bnz addr) s = .next t ↔
      s.pc ≠ pcWrap ∧ { s with pc := if branchTaken s.z then branchTarget addr else s.pc + 1#6 } = t :=
  execBnz_next_iff

/-! ## The zero flag (R18) -/

/-- Settles O16: the flag is that of the result, which no old flag enters; BNZ only tests it. -/
theorem zeroFlagWritersAndReaders : Obligations.ZeroFlagWritersAndReaders := by
  intro c i s t h
  refine ⟨fun rd hd => ?_, fun rd hd v => ?_, ?_, State.finishStep_z t c i⟩
  · obtain ⟨-, rfl⟩ := (exec_next_iff_of_dest hd).1 h
    simp
  · obtain ⟨hpc, rfl⟩ := (exec_next_iff_of_dest hd).1 h
    have hres : resultOf i { s with z := v } = resultOf i s := resultOf_congr fun _ _ => rfl
    exact (exec_next_iff_of_dest hd).2 ⟨hpc, by rw [hres]⟩
  · rintro addr rfl
    obtain ⟨hpc, rfl⟩ := exec_bnz_next_iff.1 h
    exact ⟨rfl, exec_bnz_next_iff.2 ⟨hpc, rfl⟩, exec_bnz_next_iff.2 ⟨hpc, rfl⟩⟩

/-! ## The registers (R12) -/

/-- Two executions that agree on pc, flag and source registers agree on pc, flag and destination. -/
theorem exec_congr {i : Instr} {s s' t t' : State} (h : exec i s = .next t) (h' : exec i s' = .next t')
    (hpc : s.pc = s'.pc) (hz : s.z = s'.z) (hsrc : ∀ r ∈ i.sources, s.regs.get r = s'.regs.get r) :
    t.pc = t'.pc ∧ t.z = t'.z ∧ ∀ rd, i.dest = some rd → t.regs.get rd = t'.regs.get rd := by
  obtain ⟨rd, hd⟩ | ⟨addr, rfl⟩ := i.dest_or_bnz
  · obtain ⟨-, rfl⟩ := (exec_next_iff_of_dest hd).1 h
    obtain ⟨-, rfl⟩ := (exec_next_iff_of_dest hd).1 h'
    have hres := resultOf_congr hsrc
    refine ⟨congrArg (· + 1#6) hpc, congrArg zeroFlag hres, fun rd' hd' => ?_⟩
    obtain rfl : rd = rd' := Option.some.inj (hd.symm.trans hd')
    simpa using hres
  · obtain ⟨-, rfl⟩ := exec_bnz_next_iff.1 h
    obtain ⟨-, rfl⟩ := exec_bnz_next_iff.1 h'
    exact ⟨by simp [hpc, hz], hz, fun rd hd => by cases hd⟩

/-- A register that is not the destination is kept. -/
theorem exec_keeps_reg {i : Instr} {s t : State} (h : exec i s = .next t) {r : Reg} (hr : i.dest ≠ some r) :
    t.regs.get r = s.regs.get r := by
  obtain ⟨rd, hd⟩ | ⟨addr, rfl⟩ := i.dest_or_bnz
  · obtain ⟨-, rfl⟩ := (exec_next_iff_of_dest hd).1 h
    exact Regs.get_set_other _ _ _ _ fun e => hr (e ▸ hd)
  · obtain ⟨-, rfl⟩ := exec_bnz_next_iff.1 h
    rfl

/-- The clock that counts no step keeps the registers. -/
theorem engineStep_keeps_regs {c : Params} {s t : State} (h : engineStep c s = .next t) (hcyc : t.cyc = s.cyc) :
    t.regs = s.regs := by
  obtain ⟨-, -, rfl⟩ | ⟨-, -, rfl⟩ | ⟨-, -, hstep⟩ := engineStep_next h
  · rfl
  · rfl
  · obtain ⟨hcount, -⟩ := stepOnce_keeps hstep
    omega

/-- Settles O17, clause by clause. -/
theorem registerReadsAndWrites : Obligations.RegisterReadsAndWrites := by
  refine ⟨fun i s s' t t' h h' hpc hz hsrc => exec_congr h h' hpc hz hsrc,
    fun i s t h r hr => exec_keeps_reg h hr, fun c i t => ⟨State.finishStep_regs t c i, fun o ho => ?_⟩,
    fun c s t h hcyc => engineStep_keeps_regs h hcyc⟩
  obtain rfl : t.wrapPc.observe c i = o := by simpa using ho
  exact t.wrapPc_regs

/-! ## The step from 63 (D10, U3) -/

theorem State.withinStep_from_63 {s : State} (k : State → State) (h : s.pc = pcWrap) :
    s.withinStep k = .refused .stepFrom63 := by
  simp [State.withinStep, h]

/-- Settles O27: the step tests `pc` first, and both forms of a meaning are within a step. -/
theorem stepFrom63Refused : Obligations.StepFrom63Refused := by
  intro c s hpc
  have hwrap : s.pc = pcWrap := hpc
  refine ⟨by simp [stepOnce, hwrap], fun i => ?_⟩
  obtain ⟨rd, -, he⟩ | ⟨addr, -, he⟩ := exec_cases i s
  · exact he.trans (State.withinStep_from_63 _ hwrap)
  · exact he.trans (State.withinStep_from_63 _ hwrap)

end Machine
end Sys2Proof
end

section
/-! PROOFS. The codec's ports (R27) against `encode` and `decodeByte`: everything follows from the opcode the two top
bits name, never from the wires of an invalid field. -/

namespace Sys2Proof

/-! ## Fields as numbers (R46, R47) -/

@[simp] theorem Reg.bits_ofBits (v : BitVec 2) : (Reg.ofBits v).bits = v := by
  revert v
  decide

@[simp] theorem Opcode.bits_ofBits (v : BitVec 2) : (Opcode.ofBits v).bits = v := by
  revert v
  decide

/-- A field of the opcode's value holds the opcode's bits. -/
theorem Opcode.eq_bits_of_ofBits {v : BitVec 2} {o : Opcode} (h : Opcode.ofBits v = o) : v = o.bits := by
  rw [← h, Opcode.bits_ofBits]

theorem opField_toNat (b : Byte) : (opField b).toNat = b.toNat / 64 := by
  have hlt : b.toNat < 256 := b.isLt
  simp [opField, BitVec.extractLsb'_toNat, Nat.shiftRight_eq_div_pow]
  omega

/-- The opcode a byte names, as the number of its top bits (R45, R49). -/
theorem div_64_of_opcode {b : Byte} {o : Opcode} (h : Opcode.ofBits (opField b) = o) :
    b.toNat / 64 = o.bits.toNat := by
  rw [← opField_toNat, Opcode.eq_bits_of_ofBits h]

theorem rnField_toNat (b : Byte) : (rnField b).toNat = b.toNat / 16 % 4 := by
  simp [rnField, BitVec.extractLsb'_toNat, Nat.shiftRight_eq_div_pow]

theorem rmField_toNat (b : Byte) : (rmField b).toNat = b.toNat / 4 % 4 := by
  simp [rmField, BitVec.extractLsb'_toNat, Nat.shiftRight_eq_div_pow]

theorem rdField_toNat (b : Byte) : (rdField b).toNat = b.toNat % 4 := by
  simp [rdField, BitVec.extractLsb'_toNat]

theorem addrField_toNat (b : Byte) : (addrField b).toNat = b.toNat % 64 := by
  simp [addrField, BitVec.extractLsb'_toNat]

namespace Machine

/-! ## The ports (R27) -/

/-- Packing what the unpacker delivers is encoding what `Decode` delivers. -/
theorem pack_unpack (b : Byte) : pack (unpack b).toPackIn = encode (decodeByte b) := by
  cases h : Opcode.ofBits (opField b) with
  | add =>
    have hop := Opcode.eq_bits_of_ofBits h
    simp [unpack, UnpackOut.toPackIn, pack, decodeByte, encode, h, ← hop]
  | and =>
    have hop := Opcode.eq_bits_of_ofBits h
    simp [unpack, UnpackOut.toPackIn, pack, decodeByte, encode, h, ← hop]
  | not =>
    have hop := Opcode.eq_bits_of_ofBits h
    simp [unpack, UnpackOut.toPackIn, pack, decodeByte, encode, h, ← hop]
  | bnz => simp [unpack, UnpackOut.toPackIn, pack, decodeByte, encode, h]

/-- The unpacker's opcode wires are always the opcode field. -/
@[simp] theorem unpack_op (b : Byte) : (unpack b).op = opField b := by
  unfold unpack
  split <;> rfl

/-- The three validity bits are those of the opcode (R27, R48). -/
theorem unpack_valid (b : Byte) :
    ((unpack b).rnRdValid = true ↔ b.toNat / 64 ≠ 3) ∧ ((unpack b).rmValid = true ↔ b.toNat / 64 ≤ 1) ∧
      ((unpack b).addrValid = true ↔ b.toNat / 64 = 3) := by
  cases h : Opcode.ofBits (opField b) <;> simp [unpack, h, div_64_of_opcode h, Opcode.bits]

/-- A wire whose validity bit is set carries its field of the byte. -/
theorem unpack_wires (b : Byte) :
    ((unpack b).rnRdValid = true → (unpack b).rn = rnField b ∧ (unpack b).rd = rdField b) ∧
      ((unpack b).rmValid = true → (unpack b).rm = rmField b) ∧
      ((unpack b).addrValid = true → (unpack b).addr = addrField b) := by
  cases h : Opcode.ofBits (opField b) <;> simp [unpack, h]

/-- A NOT ignores the `rm` and `addr` inputs. -/
theorem pack_not_ignores {p : PackIn} (h : p.op = 2#2) (rm : BitVec 2) (addr : BitVec 6) :
    pack { p with rm := rm, addr := addr } = pack p := by
  have hop : Opcode.ofBits p.op = .not := by rw [h]; rfl
  simp [pack, hop]

/-- Every opcode but BNZ ignores the `addr` input. -/
theorem pack_ignores_addr {p : PackIn} (h : p.op ≠ 3#2) (addr : BitVec 6) :
    pack { p with addr := addr } = pack p := by
  cases hop : Opcode.ofBits p.op with
  | add => simp [pack, hop]
  | and => simp [pack, hop]
  | not => simp [pack, hop]
  | bnz => exact absurd (Opcode.eq_bits_of_ofBits hop) h

/-- A BNZ ignores the register inputs. -/
theorem pack_bnz_ignores {p : PackIn} (h : p.op = 3#2) (rn rm rd : BitVec 2) :
    pack { p with rn := rn, rm := rm, rd := rd } = pack p := by
  have hop : Opcode.ofBits p.op = .bnz := by rw [h]; rfl
  simp [pack, hop]

/-- Settles O8: the six clauses are the lemmas on `pack` and `unpack`, with the fields read as numbers. -/
theorem codecPortsAreTheCodec : Obligations.CodecPortsAreTheCodec := by
  refine ⟨pack_unpack, unpack_valid, fun b => ?_, fun p rm addr h => pack_not_ignores h rm addr,
    fun p addr h => pack_ignores_addr h addr, fun p rn rm rd h => pack_bnz_ignores h rn rm rd⟩
  obtain ⟨hregs, hrm, haddr⟩ := unpack_wires b
  refine ⟨by rw [unpack_op, opField_toNat], fun hv => ?_, fun hv => ?_, fun hv => ?_⟩
  · obtain ⟨hrn, hrd⟩ := hregs hv
    exact ⟨hrn ▸ rnField_toNat b, hrd ▸ rdField_toNat b⟩
  · exact hrm hv ▸ rmField_toNat b
  · exact haddr hv ▸ addrField_toNat b

end Machine
end Sys2Proof
end

section
/-! PROOFS. What a clock and a host action leave: the cases of `tick`, the engine's outputs (R28), and the invariant of
the machine along every event. -/

namespace Sys2Proof.Machine

/-! ## The observation of a step (R101) -/

theorem decodeByte_of_decodeAs {p : NotRmNonzero} {b : Byte} {i : Instr} (h : decodeAs p b = .ok i) :
    decodeByte b = i := by
  cases p with
  | ignore => exact Except.ok.inj h
  | fault =>
    simp only [decodeAs] at h
    split at h
    · cases h
    · exact Except.ok.inj h

/-- The flag an executed instruction leaves is the one its observation accounts for (R17, R18). -/
theorem exec_flagAfter {i : Instr} {s t : State} (h : exec i s = .next t) {o : Obs} (hi : o.instr = i)
    (hregs : o.regs = t.regs) : o.flagAfter s.z = t.z := by
  obtain ⟨rd, hd⟩ | ⟨addr, rfl⟩ := i.dest_or_bnz
  · obtain ⟨-, rfl⟩ := (exec_next_iff_of_dest hd).1 h
    simp [Obs.flagAfter, hi, hd, hregs]
  · obtain ⟨-, rfl⟩ := exec_bnz_next_iff.1 h
    simp [Obs.flagAfter, hi, Instr.dest]

/-- A completed step emits one observation: numbered by the step, showing the state after it and accounting for its
flag, with the instruction decoded from the byte at the starting pc. -/
theorem stepOnce_emits {c : Params} {s t : State} (h : stepOnce c s = .next t) :
    ∃ o, t.obs = s.obs ++ [o] ∧ o.index = c.obsIndexBase + s.cyc ∧ o.shows t ∧ o.flagAfter s.z = t.z ∧
      ∃ b, s.fetch = some b ∧ decodeByte b = o.instr := by
  obtain ⟨-, -, b, i, u, hb, hi, hu, rfl⟩ := stepOnce_next h
  obtain ⟨hcyc, -, -, -, -, -, hobs⟩ := exec_keeps hu
  refine ⟨u.wrapPc.observe c i, by rw [State.finishStep_obs, hobs], ?_, ⟨rfl, rfl, rfl⟩, ?_, b, hb,
    decodeByte_of_decodeAs hi⟩
  · rw [← hcyc, ← u.wrapPc_cyc]
    rfl
  · rw [State.finishStep_z]
    exact exec_flagAfter hu rfl u.wrapPc_regs

/-! ## The state a clock leaves -/

theorem tick_of_next {c : Params} {s t : State} (h : engineStep c s = .next t) : tick c s = t := by
  simp [tick, h]

/-- `ProgramOverrun` is reported by a failed run again, and by a running one at `pc >= N` with budget left. -/
theorem engineStep_overrun {c : Params} {s : State} {p : Addr} {n : Nat}
    (h : engineStep c s = .fault (.programOverrun p n)) :
    s.status = .overrun ∨ (s.progLen ≤ s.pc.toNat ∧ s.cyc < s.budget) := by
  cases hs : s.status with
  | idle => simp [engineStep, hs] at h
  | done => simp [engineStep, hs] at h
  | overrun => exact .inl rfl
  | running =>
    rcases Nat.lt_or_ge s.cyc s.budget with hb | hb
    · obtain ⟨-, hN⟩ := stepOnce_overrun_only (engineStep_running hs hb ▸ h)
      exact .inr ⟨hN, hb⟩
    · simp [engineStep, hs, hb] at h

/-- What the state after a clock can be: unchanged, the run ended `Done` or `Overrun`, or one completed step. -/
theorem tick_cases (c : Params) (s : State) :
    tick c s = s ∨
    (s.status = .running ∧ s.budget ≤ s.cyc ∧ tick c s = { s with status := .done }) ∨
    ((s.status = .overrun ∨ (s.progLen ≤ s.pc.toNat ∧ s.cyc < s.budget)) ∧ tick c s = s.raiseOverrun) ∨
    (s.status = .running ∧ s.cyc < s.budget ∧ stepOnce c s = .next (tick c s)) := by
  cases h : engineStep c s with
  | next t =>
    rw [tick_of_next h]
    obtain ⟨-, -, rfl⟩ | hdone | hstep := engineStep_next h
    · exact .inl rfl
    · exact .inr (.inl hdone)
    · exact .inr (.inr (.inr hstep))
  | fault r =>
    cases r with
    | programOverrun p n => exact .inr (.inr (.inl ⟨engineStep_overrun h, by simp [tick, h]⟩))
    | reservedNotBits b => exact .inl (by simp [tick, h])
  | refused r => exact .inl (by simp [tick, h])

/-- A clock that counts a step completed one. -/
theorem stepOnce_of_tick_cyc {c : Params} {s : State} (h : (tick c s).cyc = s.cyc + 1) :
    s.status = .running ∧ s.cyc < s.budget ∧ stepOnce c s = .next (tick c s) := by
  obtain he | ⟨-, -, he⟩ | ⟨-, he⟩ | hstep := tick_cases c s
  · simp [he] at h
  · simp [he] at h
  · simp [he] at h
  · exact hstep

/-- Settles O26: the clock answers the same state, which is then a fixed point of `tick`. -/
theorem idleAndDoneHold : Obligations.IdleAndDoneHold := by
  intro c s hs
  have hstep : engineStep c s = .next s := by rcases hs with hs | hs <;> simp [engineStep, hs]
  exact ⟨hstep, Function.iterate_fixed (tick_of_next hstep)⟩

/-! ## The engine's outputs (R28) -/

/-- `obs_instr` shows an instruction exactly for a clock that completes a step, and then that of its observation. -/
theorem completedInstr_eq_some_iff {c : Params} {s : State} {i : Instr} :
    completedInstr c s = some i ↔ s.status = .running ∧ s.cyc < s.budget ∧
      ∃ t, stepOnce c s = .next t ∧ t.obs.getLast?.map Obs.instr = some i := by
  unfold completedInstr
  split
  · rename_i t hrun hstep
    rcases Nat.lt_or_ge s.cyc s.budget with hb | hb
    · simp [hrun, hb, Nat.not_le.2 hb, hstep]
    · simp [hb, Nat.not_lt.2 hb]
  · rename_i hnone
    simp only [reduceCtorEq, false_iff]
    rintro ⟨hrun, -, t, hstep, -⟩
    exact hnone t hrun hstep

/-- A completed step's instruction is shown on `obs_instr`, decoded from the byte at the starting pc. -/
theorem completedInstr_of_step {c : Params} {s t : State} (hrun : s.status = .running) (hb : s.cyc < s.budget)
    (h : stepOnce c s = .next t) :
    ∃ i b, completedInstr c s = some i ∧ s.fetch = some b ∧ decodeByte b = i := by
  obtain ⟨o, hobs, -, -, -, b, hfetch, hdec⟩ := stepOnce_emits h
  exact ⟨o.instr, b, completedInstr_eq_some_iff.2 ⟨hrun, hb, t, h, by simp [hobs]⟩, hfetch, hdec⟩

/-- `obs_valid` is high exactly for a clock that counts a step. -/
theorem obsValid_iff (c : Params) (s : State) :
    (engineOut c s).obsValid = true ↔ (tick c s).cyc = s.cyc + 1 := by
  constructor
  · intro h
    obtain ⟨i, hi⟩ := Option.isSome_iff_exists.1 h
    obtain ⟨hrun, hb, t, hstep, -⟩ := completedInstr_eq_some_iff.1 hi
    obtain ⟨hcount, -⟩ := stepOnce_keeps hstep
    rwa [tick_of_next ((engineStep_running hrun hb).trans hstep)]
  · intro h
    obtain ⟨hrun, hb, hstep⟩ := stepOnce_of_tick_cyc h
    obtain ⟨i, b, hi, -⟩ := completedInstr_of_step hrun hb hstep
    exact Option.isSome_iff_exists.2 ⟨i, hi⟩

/-- The instruction on `obs_instr` is decoded from the byte at the clock's starting pc. -/
theorem obsInstr_decoded {c : Params} {s : State} {i : Instr} (h : (engineOut c s).obsInstr = some i) :
    ∃ b, s.store.read s.pc.toNat = some b ∧ decodeByte b = i := by
  obtain ⟨hrun, hb, t, hstep, -⟩ := completedInstr_eq_some_iff.1 h
  obtain ⟨j, b, hj, hfetch, hdec⟩ := completedInstr_of_step hrun hb hstep
  obtain rfl : j = i := Option.some.inj (hj.symm.trans h)
  exact ⟨b, hfetch, hdec⟩

theorem engineOut_status (c : Params) (s : State) : (engineOut c s).status = (tick c s).status.code := rfl

/-- Settles O32: the two observation ports by the lemmas above, the others by definition. -/
theorem engineOutputs : Obligations.EngineOutputs := by
  intro c s
  refine ⟨obsValid_iff c s, fun i h => obsInstr_decoded h, rfl, rfl, rfl, rfl, rfl, rfl, rfl, rfl, ?_, ?_, ?_, ?_⟩
  all_goals
    intro h
    rw [engineOut_status, h]
    rfl

/-! ## Where the invariant comes from -/

/-- A machine with nothing executed, Idle or just started, meets the invariant when the host's program does. -/
theorem State.Inv.of_fresh {c : Params} {s : State} {st : Status} (hst : st = .idle ∨ st = .running)
    (hwf : s.store.wf = true) (hlen : s.progLen ≤ progSlots) : ({ s.fresh with status := st } : State).Inv c where
  pc_le := Nat.zero_le _
  store_wf := hwf
  len_le := hlen
  cyc_le := Nat.zero_le _
  idle_fresh := by
    rintro rfl
    rfl
  done_spent := by
    rintro rfl
    simp at hst
  overrun_at := by
    rintro rfl
    simp at hst
  obs_numbered := rfl
  obs_shows := by
    intro o h
    cases h
  flag_history := rfl

/-- Settles O37: reset is a fresh machine with an empty program. -/
theorem resetMeetsInvariant : Obligations.ResetMeetsInvariant := fun _ =>
  State.Inv.of_fresh (s := State.reset) (.inl rfl) Memory.wf_reset (Nat.zero_le _)

/-! ## Clocks keep the invariant -/

/-- Ending a run keeps the invariant where the new status may stand. -/
theorem State.Inv.with_status {c : Params} {s : State} (h : s.Inv c) {st : Status} (hidle : st ≠ .idle)
    (hdone : st = .done → s.cyc = s.budget)
    (hover : st = .overrun → s.progLen ≤ s.pc.toNat ∧ s.cyc < s.budget) :
    ({ s with status := st } : State).Inv c where
  pc_le := h.pc_le
  store_wf := h.store_wf
  len_le := h.len_le
  cyc_le := h.cyc_le
  idle_fresh := fun he => absurd he hidle
  done_spent := hdone
  overrun_at := hover
  obs_numbered := h.obs_numbered
  obs_shows := h.obs_shows
  flag_history := h.flag_history

theorem flagHistory_concat (os : List Obs) (o : Obs) : flagHistory (os ++ [o]) = o.flagAfter (flagHistory os) := by
  simp [flagHistory, Obs.flagAfter]

/-- A completed step with budget left keeps the invariant. -/
theorem stepOnce_keeps_inv {c : Params} {s t : State} (h : s.Inv c) (hrun : s.status = .running)
    (hb : s.cyc < s.budget) (hstep : stepOnce c s = .next t) : t.Inv c := by
  obtain ⟨hcyc, hstatus, hstore, hlen, hbudget, -, hpc⟩ := stepOnce_keeps hstep
  obtain ⟨o, hobs, hindex, hshows, hflag, -⟩ := stepOnce_emits hstep
  have hrunning : t.status = .running := hstatus.trans hrun
  exact {
    pc_le := hpc
    store_wf := hstore ▸ h.store_wf
    len_le := hlen ▸ h.len_le
    cyc_le := by omega
    idle_fresh := by simp [hrunning]
    done_spent := by simp [hrunning]
    overrun_at := by simp [hrunning]
    obs_numbered := by simp [hobs, hcyc, hindex, h.obs_numbered, List.range'_1_concat]
    obs_shows := by
      intro o' ho'
      obtain rfl : o = o' := by simpa [hobs] using ho'
      exact hshows
    flag_history := by rw [hobs, flagHistory_concat, ← h.flag_history, hflag] }

/-- Every clock keeps the invariant, one that fails too. -/
theorem tick_keeps_inv {c : Params} {s : State} (h : s.Inv c) : (tick c s).Inv c := by
  obtain he | ⟨-, hb, he⟩ | ⟨hover, he⟩ | ⟨hrun, hb, hstep⟩ := tick_cases c s
  · rwa [he]
  · rw [he]
    exact h.with_status (by simp) (fun _ => Nat.le_antisymm h.cyc_le hb) (by simp)
  · rw [he]
    have hat : s.progLen ≤ s.pc.toNat ∧ s.cyc < s.budget := hover.elim h.overrun_at id
    exact h.with_status (by simp) (by simp) fun _ => hat
  · exact stepOnce_keeps_inv h hrun hb hstep

/-- Settles O38: a step that answers a next state is a clock. -/
theorem stepKeepsInvariant : Obligations.StepKeepsInvariant := fun _ _ h hstep =>
  tick_of_next hstep ▸ tick_keeps_inv h

/-! ## Host actions (R28, R29) -/

/-- Outside Idle every action but reset is refused. -/
theorem hostAct_refused {a : HostAction} {s : State} (hs : s.status ≠ .idle) (ha : a ≠ .reset) :
    hostAct a s = .refused (.portClosed s.status) := by
  cases a with
  | reset => exact absurd rfl ha
  | load addr data => simp [hostAct, hs]
  | setLength n => simp [hostAct, hs]
  | start budget d => simp [hostAct, hs]

theorem hostAct_load {s : State} (hs : s.status = .idle) (addr : Addr) (data : Byte) :
    hostAct (.load addr data) s = .next { s with store := s.store.write addr.toNat data } := by
  simp [hostAct, hs]

theorem hostAct_setLength {s : State} (hs : s.status = .idle) {n : Nat} (hn : n ≤ progSlots) :
    hostAct (.setLength n) s = .next { s with progLen := n } := by
  simp [hostAct, hs, hn]

theorem hostAct_setLength_refused {s : State} (hs : s.status = .idle) {n : Nat} (hn : progSlots < n) :
    hostAct (.setLength n) s = .refused (.lengthOutOfRange n) := by
  simp [hostAct, hs, hn]

theorem hostAct_start {s : State} (hs : s.status = .idle) (budget : Option Nat) (d : Bool) :
    hostAct (.start budget d) s = .next (s.begin budget d) := by
  simp [hostAct, hs]

/-- Settles O36, from what each port does. -/
theorem hostPortsOnlyInIdle : Obligations.HostPortsOnlyInIdle := by
  intro s
  refine ⟨fun hs a ha => hostAct_refused hs ha, fun hs => ⟨fun addr data => ?_, fun n hn => hostAct_setLength hs hn,
    fun n hn => hostAct_setLength_refused hs hn, fun budget d => hostAct_start hs budget d⟩⟩
  exact ⟨_, hostAct_load hs addr data, Memory.read_write_same _ _ _, fun a ha => Memory.read_write_other _ _ ha⟩

/-- A host action that is done keeps the invariant: each leaves a machine with nothing executed. -/
theorem hostAct_keeps_inv {c : Params} {a : HostAction} {s t : State} (h : s.Inv c) (ha : hostAct a s = .next t) :
    t.Inv c := by
  rcases eq_or_ne a .reset with rfl | hreset
  · cases ha
    exact State.Inv.of_fresh (.inl rfl) h.store_wf h.len_le
  have hs : s.status = .idle := by
    by_contra hs
    simp [hostAct_refused hs hreset] at ha
  have hfresh := h.idle_fresh hs
  cases a with
  | reset => exact absurd rfl hreset
  | load addr data =>
    rw [hostAct_load hs] at ha
    cases ha
    rw [hfresh]
    exact State.Inv.of_fresh (s := { s with store := s.store.write addr.toNat data }) (.inl rfl)
      (Memory.wf_write data h.store_wf addr.isLt) h.len_le
  | setLength n =>
    rcases Nat.lt_or_ge progSlots n with hn | hn
    · simp [hostAct_setLength_refused hs hn] at ha
    · rw [hostAct_setLength hs hn] at ha
      cases ha
      rw [hfresh]
      exact State.Inv.of_fresh (s := { s with progLen := n }) (.inl rfl) h.store_wf hn
  | start budget d =>
    rw [hostAct_start hs] at ha
    cases ha
    exact State.Inv.of_fresh (s := { s with budget := budget.getD defaultBudget, disasm := d }) (.inr rfl)
      h.store_wf h.len_le

/-- Settles O39: a clock by `tick_keeps_inv`, a host action by `hostAct_keeps_inv`; a refused one leaves the state. -/
theorem eventsKeepInvariant : Obligations.EventsKeepInvariant := by
  intro c s e h
  cases e with
  | clock => exact tick_keeps_inv h
  | host a =>
    simp only [State.after]
    split
    · exact hostAct_keeps_inv h ‹_›
    · exact h
    · exact h

end Sys2Proof.Machine
end

section
/-! PROOFS. The program store (R30 to R35): no clock changes it (R31), the image a run begins with (R32), and that a
run depends only on the slots it can fetch (R34, R35). -/

namespace Sys2Proof.Machine

/-! ## No clock changes the program (R26, R31) -/

/-- A clock that answers a next state keeps the program store and the run parameters. -/
theorem engineStep_keeps_program {c : Params} {s t : State} (h : engineStep c s = .next t) :
    t.store = s.store ∧ t.progLen = s.progLen ∧ t.budget = s.budget ∧ t.disasm = s.disasm := by
  obtain ⟨-, -, rfl⟩ | ⟨-, -, rfl⟩ | ⟨-, -, hstep⟩ := engineStep_next h
  · exact ⟨rfl, rfl, rfl, rfl⟩
  · exact ⟨rfl, rfl, rfl, rfl⟩
  · obtain ⟨-, -, hstore, hlen, hbudget, hdisasm, -⟩ := stepOnce_keeps hstep
    exact ⟨hstore, hlen, hbudget, hdisasm⟩

/-- Settles O28: a step is a clock, and equal stores read alike. -/
theorem programConstantDuringRun : Obligations.ProgramConstantDuringRun := by
  intro s t h
  obtain ⟨hstore, hlen, hbudget, hdisasm⟩ := engineStep_keeps_program h
  exact ⟨hstore, fun a => by rw [hstore], hlen, hbudget, hdisasm⟩

/-! ## The image a run begins with (R32, R135) -/

/-- A slot past the end of a loaded image is kept. -/
theorem Memory.read_load_above (m : Memory) {image : List Byte} {base a : Nat} (h : base + image.length ≤ a) :
    (m.load base image).read a = m.read a := by
  induction image generalizing m base with
  | nil => rfl
  | cons b bs ih =>
    have hbs : base + 1 + bs.length ≤ a := by
      rw [List.length_cons] at h
      omega
    have hne : a ≠ base := by omega
    exact (ih (m.write base b) hbs).trans (Memory.read_write_other m b hne)

/-- Loaded into the store after reset, an image is all there is to read. -/
theorem Memory.read_load_reset (image : List Byte) (a : Nat) :
    (State.reset.store.load 0 image).read a = image[a]? := by
  rcases Nat.lt_or_ge a image.length with ha | ha
  · have hread := Memory.read_load State.reset.store 0 ha
    rw [Nat.zero_add] at hread
    rw [hread, List.getElem?_eq_getElem ha]
  · rw [Memory.read_load_above _ (by omega), List.getElem?_eq_none ha]
    rfl

/-- The state a run begins in reads as its image, cut to the slots there are (D5). -/
theorem bootState_read (image : List Byte) (budget : Option Nat) (d : Bool) (a : Nat) :
    (bootState image budget d).store.read a = (image.take progSlots)[a]? := by
  rw [bootState_store, Memory.read_load_reset]

theorem bootState_wf (image : List Byte) (budget : Option Nat) (d : Bool) :
    (bootState image budget d).store.wf = true :=
  Memory.wf_load Memory.wf_reset (by simp)

/-- A run begins in a state that meets the invariant: a fresh machine that was just started. -/
theorem bootState_inv (c : Params) (image : List Byte) (budget : Option Nat) (d : Bool) :
    (bootState image budget d).Inv c :=
  State.Inv.of_fresh (s := bootState image budget d) (.inr rfl) (bootState_wf image budget d) (by simp)

/-- Settles O40: the image cut to 64 bytes has the image's own bytes below 64 and none from there on. -/
theorem loadedImage : Obligations.LoadedImage := by
  intro image budget d
  refine ⟨fun a ha => ?_, fun a ha => ?_, bootState_progLen image budget d, bootState_wf image budget d,
    bootState_inv params image budget d⟩
  · exact (bootState_read image budget d a).trans (List.getElem?_take_of_lt ha)
  · have hend : (image.take progSlots).length ≤ a := (List.length_take_le _ _).trans ha
    rw [bootState_read, List.getElem?_eq_none hend]

/-! ## A run depends only on the slots it can fetch (R34, R35) -/

/-- The state with another program store. -/
def State.withStore (m : Memory) (s : State) : State := { s with store := m }

/-- An outcome with its next state changed by `f`; a fault or refusal stays. -/
def mapNext (f : State → State) : Host.Outcome State Fault Refusal → Host.Outcome State Fault Refusal
  | .next s => .next (f s)
  | .fault r => .fault r
  | .refused r => .refused r

section WithStore
variable (m : Memory) (s : State)

@[simp] theorem State.withStore_z : (s.withStore m).z = s.z := rfl
@[simp] theorem State.withStore_pc : (s.withStore m).pc = s.pc := rfl
@[simp] theorem State.withStore_progLen : (s.withStore m).progLen = s.progLen := rfl

/-- An update that does not look at the store is within a step whatever the store. -/
theorem State.withinStep_withStore {k : State → State} (hk : k (s.withStore m) = (k s).withStore m) :
    (s.withStore m).withinStep k = mapNext (State.withStore m) (s.withinStep k) := by
  unfold State.withinStep
  rw [State.withStore_pc]
  split
  · rfl
  · rw [hk]
    rfl

theorem State.writeResult_withStore (rd : Reg) (v : Byte) :
    (s.withStore m).writeResult rd v = mapNext (State.withStore m) (s.writeResult rd v) := by
  unfold State.writeResult
  exact s.withinStep_withStore m rfl

theorem execBnz_withStore (addr : Addr) :
    execBnz addr (s.withStore m) = mapNext (State.withStore m) (execBnz addr s) := by
  unfold execBnz
  refine s.withinStep_withStore m ?_
  rw [State.withStore_z]
  split <;> rfl

/-- No instruction looks at the program store (R31). -/
theorem exec_withStore (i : Instr) : exec i (s.withStore m) = mapNext (State.withStore m) (exec i s) := by
  cases i with
  | add rd rn rm => exact s.writeResult_withStore m rd _
  | and rd rn rm => exact s.writeResult_withStore m rd _
  | not rd rn => exact s.writeResult_withStore m rd _
  | bnz addr => exact execBnz_withStore m s addr

/-- Neither do the wraparound and the observation. -/
theorem State.finishStep_withStore (c : Params) (i : Instr) :
    (s.withStore m).finishStep c i = (s.finishStep c i).withStore m := by
  unfold State.finishStep
  rw [State.wrapPc_eq, State.wrapPc_eq]
  rfl

theorem runInstr_withStore (c : Params) (i : Instr) :
    runInstr c i (s.withStore m) = mapNext (State.withStore m) (runInstr c i s) := by
  unfold runInstr
  rw [exec_withStore]
  cases exec i s with
  | next t => exact congrArg Host.Outcome.next (t.finishStep_withStore m c i)
  | fault r => rfl
  | refused r => rfl

end WithStore

/-- A fetch below N and not from 63 is of a slot the two stores agree on. -/
theorem State.sameReachable.fetch_withStore {s : State} {m : Memory} (h : s.sameReachable m) (hpc : s.pc ≠ pcWrap)
    (hN : s.pc.toNat < s.progLen) : (s.withStore m).fetch = s.fetch :=
  (h s.pc.toNat hN (pc_le_of_ne_wrap hpc)).symm

/-- A step on a store that agrees on the reachable slots does the same, but for the store itself: the tests before the
fetch do not look at it, the fetch gets the same byte, and nothing after it looks at the store again. -/
theorem stepOnce_withStore (c : Params) {s : State} {m : Memory} (h : s.sameReachable m) :
    stepOnce c (s.withStore m) = mapNext (State.withStore m) (stepOnce c s) := by
  by_cases hpc : s.pc = pcWrap
  · simp [stepOnce, hpc, mapNext]
  rcases Nat.lt_or_ge s.pc.toNat s.progLen with hN | hN
  · have hfetch := h.fetch_withStore hpc hN
    cases hb : s.fetch with
    | none => simp [stepOnce, hpc, Nat.not_le.2 hN, hfetch, hb, mapNext]
    | some b =>
      cases hd : decodeAs c.notRm b with
      | error e => simp [stepOnce, hpc, Nat.not_le.2 hN, hfetch, hb, hd, mapNext]
      | ok i =>
        calc stepOnce c (s.withStore m)
            = runInstr c i (s.withStore m) := stepOnce_eq_runInstr hpc hN (hfetch.trans hb) hd
          _ = mapNext (State.withStore m) (runInstr c i s) := runInstr_withStore m s c i
          _ = mapNext (State.withStore m) (stepOnce c s) := by rw [stepOnce_eq_runInstr hpc hN hb hd]
  · rw [stepOnce_overrun c hpc hN]
    exact stepOnce_overrun c hpc hN

/-- A completed step keeps the store and N, and so what the two stores have to agree on. -/
theorem stepOnce_keeps_sameReachable {c : Params} {s t : State} {m : Memory} (h : stepOnce c s = .next t)
    (hm : s.sameReachable m) : t.sameReachable m := by
  obtain ⟨-, -, hstore, hlen, -⟩ := stepOnce_keeps h
  intro a ha h62
  rw [hstore]
  exact hm a (hlen ▸ ha) h62

/-- Settles O29, by induction on the number of steps. -/
theorem unreachableSlotsNeverRead : Obligations.UnreachableSlotsNeverRead := by
  intro c k s m hm
  change runLoop c k (s.withStore m) = (runLoop c k s).mapState (State.withStore m)
  induction k generalizing s with
  | zero => rfl
  | succ k ih =>
    unfold runLoop
    rw [stepOnce_withStore c hm]
    cases hstep : stepOnce c s with
    | next t => exact ih t (stepOnce_keeps_sameReachable hstep hm)
    | fault r => cases r <;> rfl
    | refused r => rfl

end Sys2Proof.Machine
end

section
/-! PROOFS. The codec against the layout of R46 and R47: packing a byte and taking it apart are inverse, so `decodeByte`
inverts `encode` (R52), and a byte is an encoding exactly when re-encoding gives it back (R50, R53). -/

namespace Sys2Proof

/-! ## Registers and opcodes as numbers (R46, R49) -/

@[simp] theorem Reg.ofBits_bits (r : Reg) : Reg.ofBits r.bits = r := by cases r <;> rfl

@[simp] theorem Opcode.ofBits_bits (o : Opcode) : Opcode.ofBits o.bits = o := by cases o <;> rfl

theorem Reg.bits_toNat (r : Reg) : r.bits.toNat = r.index := by cases r <;> rfl

theorem Reg.index_ofBits (v : BitVec 2) : (Reg.ofBits v).index = v.toNat := by
  rw [← Reg.bits_toNat, Reg.bits_ofBits]

/-- The opcode of a byte is the one its top two bits number. -/
theorem opcode_eq_iff {b : Byte} {o : Opcode} : Opcode.ofBits (opField b) = o ↔ b.toNat / 64 = o.bits.toNat := by
  refine ⟨div_64_of_opcode, fun h => ?_⟩
  have hbits : opField b = o.bits := BitVec.eq_of_toNat_eq ((opField_toNat b).trans h)
  rw [hbits, Opcode.ofBits_bits]

/-! ## Packed fields (R46, R47) -/

theorem append_toNat {v w : Nat} (x : BitVec v) (y : BitVec w) : (x ++ y).toNat = 2 ^ w * x.toNat + y.toNat := by
  rw [BitVec.toNat_append, ← Nat.shiftLeft_add_eq_or_of_lt y.isLt, Nat.shiftLeft_eq, Nat.mul_comm]

section Packed
variable (op rn rm rd : BitVec 2) (addr : Addr) (b : Byte)

theorem packR_toNat :
    (packR op rn rm rd).toNat = 64 * op.toNat + 16 * rn.toNat + 4 * rm.toNat + rd.toNat := by
  change (op ++ rn ++ rm ++ rd : BitVec (2 + 2 + 2 + 2)).toNat = _
  simp only [append_toNat]
  omega

theorem packB_toNat : (packB addr).toNat = 0xC0 + addr.toNat :=
  append_toNat (Opcode.bits .bnz) addr

@[simp] theorem opField_packR : opField (packR op rn rm rd) = op := by
  apply BitVec.eq_of_toNat_eq
  rw [opField_toNat, packR_toNat]
  omega

@[simp] theorem rnField_packR : rnField (packR op rn rm rd) = rn := by
  apply BitVec.eq_of_toNat_eq
  rw [rnField_toNat, packR_toNat]
  omega

@[simp] theorem rmField_packR : rmField (packR op rn rm rd) = rm := by
  apply BitVec.eq_of_toNat_eq
  rw [rmField_toNat, packR_toNat]
  omega

@[simp] theorem rdField_packR : rdField (packR op rn rm rd) = rd := by
  apply BitVec.eq_of_toNat_eq
  rw [rdField_toNat, packR_toNat]
  omega

@[simp] theorem opField_packB : opField (packB addr) = Opcode.bits .bnz := by
  apply BitVec.eq_of_toNat_eq
  rw [opField_toNat, packB_toNat, Opcode.bits, BitVec.toNat_ofNat]
  omega

@[simp] theorem addrField_packB : addrField (packB addr) = addr := by
  apply BitVec.eq_of_toNat_eq
  rw [addrField_toNat, packB_toNat]
  omega

/-- A byte is its four fields packed. -/
theorem packR_fields : packR (opField b) (rnField b) (rmField b) (rdField b) = b := by
  apply BitVec.eq_of_toNat_eq
  rw [packR_toNat, opField_toNat, rnField_toNat, rmField_toNat, rdField_toNat]
  omega

/-- A byte of opcode BNZ is its address packed. -/
theorem packB_addrField (h : Opcode.ofBits (opField b) = .bnz) : packB (addrField b) = b := by
  have hop : b.toNat / 64 = 3 := opcode_eq_iff.1 h
  apply BitVec.eq_of_toNat_eq
  rw [packB_toNat, addrField_toNat]
  omega

/-- Masking bits 3 and 2 packs 0 in their place (R53). -/
theorem and_F3 : b &&& 0xF3#8 = packR (opField b) (rnField b) 0#2 (rdField b) := by
  revert b
  decide

end Packed

/-! ## Decoding what was encoded (R50, R52) -/

/-- R52's law on bytes: each field is read from where it was packed. -/
@[simp] theorem decodeByte_encode (i : Instr) : decodeByte (encode i) = i := by
  cases i with
  | add rd rn rm => simp [decodeByte, encode]
  | and rd rn rm => simp [decodeByte, encode]
  | not rd rn => simp [decodeByte, encode]
  | bnz addr => simp [decodeByte, encode]

theorem encode_injective : Function.Injective encode :=
  Function.LeftInverse.injective decodeByte_encode

/-- An encoded NOT has its reserved bits clear (R50), and no other instruction encodes to a NOT byte. -/
theorem notReserved_encode (i : Instr) : notReserved (encode i) = false := by
  cases i with
  | add rd rn rm => simp [notReserved, encode, Opcode.bits]
  | and rd rn rm => simp [notReserved, encode, Opcode.bits]
  | not rd rn => simp [notReserved, encode]
  | bnz addr => simp [notReserved, encode, Opcode.bits]

/-- So an encoded instruction decodes alike under either value of `NOT_RM_NONZERO`. -/
theorem decodeAs_encode (p : NotRmNonzero) (i : Instr) : decodeAs p (encode i) = .ok i := by
  cases p with
  | ignore => simp [decodeAs]
  | fault => simp [decodeAs, notReserved_encode]

/-- Every instruction's fields are those of its opcode, in range, and stand for it (R48, D11). -/
theorem fields_statement (i : Instr) : Laws.Fields.Statement i := by
  cases i with
  | add rd rn rm => exact Laws.Fields.add rd rn rm
  | and rd rn rm => exact Laws.Fields.and rd rn rm
  | not rd rn => exact Laws.Fields.not rd rn
  | bnz addr => exact Laws.Fields.bnz addr

/-- Settles O1: `decodeByte` inverts `encode`, and no encoding is one of the 48 bytes on which `NOT_RM_NONZERO` has a
say. -/
theorem decodeOfEncode : Obligations.DecodeOfEncode := by
  intro p i rest
  obtain ⟨hwf, -, -⟩ := fields_statement i
  exact ⟨hwf, decodeByte_encode i, by simp [decode, decodeAs_encode]⟩

/-! ## Encoding what was decoded (R50, R53) -/

theorem notReserved_iff (b : Byte) : notReserved b = true ↔ b.toNat / 64 = 2 ∧ b.toNat / 4 % 4 ≠ 0 := by
  simp [notReserved, ← BitVec.toNat_inj, opField_toNat, rmField_toNat, Opcode.bits]

/-- Re-encoding gives a byte back, with bits 3 and 2 cleared where the opcode is NOT (R53). -/
theorem encode_decodeByte (b : Byte) :
    encode (decodeByte b) = if b.toNat / 64 = 2 then b &&& 0xF3#8 else b := by
  have hbits {o : Opcode} (h : Opcode.ofBits (opField b) = o) : o.bits = opField b :=
    (Opcode.eq_bits_of_ofBits h).symm
  cases h : Opcode.ofBits (opField b) with
  | add =>
    rw [div_64_of_opcode h, if_neg (by decide)]
    simp [decodeByte, h, encode, hbits h, packR_fields]
  | and =>
    rw [div_64_of_opcode h, if_neg (by decide)]
    simp [decodeByte, h, encode, hbits h, packR_fields]
  | not =>
    rw [div_64_of_opcode h, if_pos (by decide)]
    simp [decodeByte, h, encode, hbits h, and_F3]
  | bnz =>
    rw [div_64_of_opcode h, if_neg (by decide)]
    simp [decodeByte, h, encode, packB_addrField]

/-- Clearing bits 3 and 2 changes a byte exactly when they are not both 0. -/
theorem and_F3_eq_self_iff (b : Byte) : b &&& 0xF3#8 = b ↔ b.toNat / 4 % 4 = 0 := by
  rw [and_F3, ← BitVec.toNat_inj, packR_toNat, opField_toNat, rnField_toNat, rdField_toNat, BitVec.toNat_ofNat]
  omega

theorem encode_decodeByte_eq_iff (b : Byte) :
    encode (decodeByte b) = b ↔ ¬ (b.toNat / 64 = 2 ∧ b.toNat / 4 % 4 ≠ 0) := by
  rw [encode_decodeByte]
  split
  · simp [and_F3_eq_self_iff, *]
  · simp [*]

/-- Settles O5. -/
theorem reencodeClearsNotBits : Obligations.ReencodeClearsNotBits := by
  refine fun b => ⟨(encode_decodeByte_eq_iff b).2, fun h => ⟨?_, fun hself => (encode_decodeByte_eq_iff b).1 hself h⟩⟩
  obtain ⟨hop, -⟩ := h
  rw [encode_decodeByte, if_pos hop]

/-! ## The image of `encode`, and all instructions (R48, R50) -/

theorem exists_encode_eq_iff (b : Byte) : (∃ i, encode i = b) ↔ encode (decodeByte b) = b := by
  refine ⟨?_, fun h => ⟨_, h⟩⟩
  rintro ⟨i, rfl⟩
  rw [decodeByte_encode]

/-- The four registers (R10). -/
def allRegs : List Reg := [.r0, .r1, .r2, .r3]

theorem mem_allRegs (r : Reg) : r ∈ allRegs := by cases r <;> decide

theorem allRegs_nodup : allRegs.Nodup := by decide

/-- The instructions of an opcode: 64, 64, 16 and 64 of them (R48). -/
def Opcode.instrs : Opcode → List Instr
  | .add => (allRegs ×ˢ allRegs ×ˢ allRegs).map fun r => .add r.1 r.2.1 r.2.2
  | .and => (allRegs ×ˢ allRegs ×ˢ allRegs).map fun r => .and r.1 r.2.1 r.2.2
  | .not => (allRegs ×ˢ allRegs).map fun r => .not r.1 r.2
  | .bnz => (List.finRange 64).map fun a => .bnz (BitVec.ofFin a)

theorem Opcode.opcode_of_mem_instrs {o : Opcode} {i : Instr} (h : i ∈ o.instrs) : i.opcode = o := by
  cases o <;> (obtain ⟨_, -, rfl⟩ := List.mem_map.1 h; rfl)

theorem Opcode.mem_instrs (i : Instr) : i ∈ i.opcode.instrs := by
  cases i with
  | add rd rn rm => simp [Instr.opcode, Opcode.instrs, mem_allRegs]
  | and rd rn rm => simp [Instr.opcode, Opcode.instrs, mem_allRegs]
  | not rd rn => simp [Instr.opcode, Opcode.instrs, mem_allRegs]
  | bnz addr => exact List.mem_map.2 ⟨addr.toFin, List.mem_finRange _, rfl⟩

theorem Opcode.instrs_nodup (o : Opcode) : o.instrs.Nodup := by
  have hregs := allRegs_nodup
  cases o with
  | add => exact (hregs.product (hregs.product hregs)).map fun _ _ h => by simpa [Prod.ext_iff] using h
  | and => exact (hregs.product (hregs.product hregs)).map fun _ _ h => by simpa [Prod.ext_iff] using h
  | not => exact (hregs.product hregs).map fun _ _ h => by simpa [Prod.ext_iff] using h
  | bnz => exact (List.nodup_finRange 64).map fun _ _ h => BitVec.ofFin.inj (Instr.bnz.inj h)

/-- All instructions, opcode by opcode (R48). -/
def allInstrs : List Instr := [Opcode.add, .and, .not, .bnz].flatMap Opcode.instrs

theorem mem_allInstrs (i : Instr) : i ∈ allInstrs :=
  List.mem_flatMap.2 ⟨i.opcode, by cases i.opcode <;> decide, Opcode.mem_instrs i⟩

theorem allInstrs_length : allInstrs.length = 208 := by
  simp [allInstrs, Opcode.instrs, allRegs]

/-- No instruction is listed twice: within an opcode the operands differ, and between opcodes the opcode. -/
theorem allInstrs_nodup : allInstrs.Nodup := by
  refine List.nodup_flatMap.2 ⟨fun o _ => o.instrs_nodup, ?_⟩
  have hdistinct : [Opcode.add, .and, .not, .bnz].Pairwise (· ≠ ·) := by decide
  exact hdistinct.imp fun hne i hi hi' =>
    hne ((Opcode.opcode_of_mem_instrs hi).symm.trans (Opcode.opcode_of_mem_instrs hi'))

/-- Settles O2: the image is listed by encoding all instructions. -/
theorem encodeLayoutAndImage : Obligations.EncodeLayoutAndImage := by
  refine ⟨fun rd rn rm => ?_, fun rd rn rm => ?_, fun rd rn => ?_, packB_toNat, fun _ _ h => encode_injective h,
    fun b => (exists_encode_eq_iff b).trans (encode_decodeByte_eq_iff b),
    ⟨allInstrs.map encode, allInstrs_nodup.map encode_injective, (List.length_map encode).trans allInstrs_length,
      fun b => ?_⟩, by decide⟩
  · simp [encode, packR_toNat, Reg.bits_toNat, Opcode.bits]
  · simp [encode, packR_toNat, Reg.bits_toNat, Opcode.bits]
  · simp [encode, packR_toNat, Reg.bits_toNat, Opcode.bits]
  · simp [mem_allInstrs]

/-- Settles O4: the first part is the law of each instruction's fields, the second the list of all. -/
theorem decodedFieldsExact : Obligations.DecodedFieldsExact := by
  refine ⟨fun i => ?_, allInstrs, allInstrs_nodup, allInstrs_length, mem_allInstrs⟩
  obtain ⟨hwf, hop, hback⟩ := fields_statement i
  refine ⟨hwf, hop, hback, ?_⟩
  cases i <;> rfl

/-! ## Decoding by position (R51) -/

section ByOpcode
variable {b : Byte}

theorem decodeByte_add (h : b.toNat / 64 = 0) :
    decodeByte b = .add (Reg.ofBits (rdField b)) (Reg.ofBits (rnField b)) (Reg.ofBits (rmField b)) := by
  have hop : Opcode.ofBits (opField b) = .add := opcode_eq_iff.2 h
  simp [decodeByte, hop]

theorem decodeByte_and (h : b.toNat / 64 = 1) :
    decodeByte b = .and (Reg.ofBits (rdField b)) (Reg.ofBits (rnField b)) (Reg.ofBits (rmField b)) := by
  have hop : Opcode.ofBits (opField b) = .and := opcode_eq_iff.2 h
  simp [decodeByte, hop]

theorem decodeByte_not (h : b.toNat / 64 = 2) :
    decodeByte b = .not (Reg.ofBits (rdField b)) (Reg.ofBits (rnField b)) := by
  have hop : Opcode.ofBits (opField b) = .not := opcode_eq_iff.2 h
  simp [decodeByte, hop]

theorem decodeByte_bnz (h : b.toNat / 64 = 3) : decodeByte b = .bnz (addrField b) := by
  have hop : Opcode.ofBits (opField b) = .bnz := opcode_eq_iff.2 h
  simp [decodeByte, hop]

end ByOpcode

theorem index_rdField (b : Byte) : (Reg.ofBits (rdField b)).index = b.toNat % 4 := by
  rw [Reg.index_ofBits, rdField_toNat]

theorem index_rnField (b : Byte) : (Reg.ofBits (rnField b)).index = b.toNat / 16 % 4 := by
  rw [Reg.index_ofBits, rnField_toNat]

theorem index_rmField (b : Byte) : (Reg.ofBits (rmField b)).index = b.toNat / 4 % 4 := by
  rw [Reg.index_ofBits, rmField_toNat]

/-- Settles O3. -/
theorem decodeLayout : Obligations.DecodeLayout :=
  ⟨fun b h => ⟨_, _, _, decodeByte_add h, index_rdField b, index_rnField b, index_rmField b⟩,
    fun b h => ⟨_, _, _, decodeByte_and h, index_rdField b, index_rnField b, index_rmField b⟩,
    fun b h => ⟨_, _, decodeByte_not h, index_rdField b, index_rnField b⟩,
    fun b h => ⟨_, decodeByte_bnz h, addrField_toNat b⟩,
    fun b => by omega, by decide, by decide⟩

theorem decodeTableWord_eight (w : Nat) : decodeTableWord 8 w = some (decodeByte (BitVec.ofNat 8 w)) := by
  have hbyte : tableByte 8 w = BitVec.ofNat 8 w := BitVec.eq_of_toNat_eq (by simp [tableByte])
  simp [decodeTableWord, decode, decodeAs, defaultNotRm, hbyte]

/-- Settles O9: a word of 8 bits decodes as its byte. -/
theorem specWordsDecode : Obligations.SpecWordsDecode := by
  unfold Obligations.SpecWordsDecode
  simp only [decodeTableWord_eight]
  decide

/-! ## The 48 reserved NOT bytes in a step (D4, U1) -/

namespace Machine

/-- Under `NOT_RM_NONZERO = fault` a step that fetches a reserved NOT byte faults (U1). -/
theorem stepOnce_notReserved (base : Nat) {s : State} {b : Byte} (hpc : s.pc ≠ pcWrap)
    (hN : s.pc.toNat < s.progLen) (hb : s.fetch = some b) (hres : notReserved b = true) :
    stepOnce ⟨.fault, base⟩ s = .fault (.reservedNotBits b) := by
  simp [stepOnce, hpc, Nat.not_le.2 hN, hb, decodeAs, hres]

/-- Settles O7: such a byte decodes to the NOT of its other fields, or not at all. -/
theorem reservedNotByteTreatments : Obligations.ReservedNotByteTreatments := by
  intro base s b hpc hN hb hop hrm
  have hdec : decodeAs .ignore b = .ok _ := congrArg Except.ok (decodeByte_not hop)
  exact ⟨⟨_, _, index_rdField b, index_rnField b, stepOnce_eq_runInstr (pc_ne_wrap hpc) hN hb hdec⟩,
    stepOnce_notReserved base (pc_ne_wrap hpc) hN hb ((notReserved_iff b).2 ⟨hop, hrm⟩)⟩

end Machine
end Sys2Proof
end

section
/-! PROOFS. The packer on a caller's field set (R55, D11): the field sets that keep the contract are exactly those of
instructions, so the packer encodes these and refuses the rest. -/

namespace Sys2Proof

/-! ## The checks on one field (R48, R55) -/

theorem checkField_eq_none_iff {bound : Nat} {e : FieldProblem} {o : Option Nat} :
    checkField bound e o = none ↔ ∃ v, o = some v ∧ v < bound := by
  cases o with
  | none => simp [checkField]
  | some v => simp [checkField]

theorem checkAbsent_eq_none_iff {o : Option Nat} : checkAbsent o = none ↔ o = none := by
  cases o <;> simp [checkAbsent]

theorem Reg.index_ofIndex {n : Nat} (h : n < 4) : (Reg.ofIndex n).index = n := by
  rw [Reg.ofIndex, Reg.index_ofBits, BitVec.toNat_ofNat, Nat.mod_eq_of_lt h]

/-! ## Field sets and instructions -/

theorem FieldSet.toInstr_fields (i : Instr) : i.fields.toInstr = .ok i := by
  obtain ⟨-, -, hback⟩ := fields_statement i
  exact hback

theorem Instr.fields_injective : Function.Injective Instr.fields := by
  intro i j h
  have hok : (Except.ok i : Except FieldProblem Instr) = .ok j := by
    rw [← FieldSet.toInstr_fields i, h, FieldSet.toInstr_fields]
  exact Except.ok.inj hok

/-- A field set that keeps the contract is the field set of an instruction: the fields its opcode has are in range,
and the others are absent. -/
theorem FieldSet.exists_fields_of_check {f : FieldSet} (h : f.check = none) : ∃ i : Instr, i.fields = f := by
  obtain ⟨op, rn, rm, rd, addr⟩ := f
  cases op <;> simp only [FieldSet.check, Option.orElse_eq_orElse, Option.orElse_eq_or, Option.or_eq_none_iff,
    checkField_eq_none_iff, checkAbsent_eq_none_iff] at h
  case add =>
    obtain ⟨⟨n, rfl, hn⟩, ⟨m, rfl, hm⟩, ⟨d, rfl, hd⟩, rfl⟩ := h
    exact ⟨.add (.ofIndex d) (.ofIndex n) (.ofIndex m), by simp [Instr.fields, Reg.index_ofIndex, hn, hm, hd]⟩
  case and =>
    obtain ⟨⟨n, rfl, hn⟩, ⟨m, rfl, hm⟩, ⟨d, rfl, hd⟩, rfl⟩ := h
    exact ⟨.and (.ofIndex d) (.ofIndex n) (.ofIndex m), by simp [Instr.fields, Reg.index_ofIndex, hn, hm, hd]⟩
  case not =>
    obtain ⟨⟨n, rfl, hn⟩, ⟨d, rfl, hd⟩, rfl, rfl⟩ := h
    exact ⟨.not (.ofIndex d) (.ofIndex n), by simp [Instr.fields, Reg.index_ofIndex, hn, hd]⟩
  case bnz =>
    obtain ⟨⟨a, rfl, ha⟩, rfl, rfl, rfl⟩ := h
    exact ⟨.bnz (BitVec.ofNat 6 a), by simp [Instr.fields, ha]⟩

theorem FieldSet.toInstr_of_check {f : FieldSet} {e : FieldProblem} (h : f.check = some e) :
    f.toInstr = .error e := by
  simp [FieldSet.toInstr, h]

theorem encodeFields_fields (i : Instr) : encodeFields i.fields = .ok (encode i) := by
  simp [encodeFields, FieldSet.toInstr_fields]

theorem encodeFields_of_check {f : FieldSet} {e : FieldProblem} (h : f.check = some e) :
    encodeFields f = .error e := by
  simp [encodeFields, FieldSet.toInstr_of_check h]

theorem Instr.check_fields (i : Instr) : i.fields.check = none := by
  obtain ⟨hwf, -, -⟩ := fields_statement i
  exact of_decide_eq_true hwf

/-- Settles O6: a field set is that of an instruction, which packs, or has a breach, which is the refusal. -/
theorem outOfRangeOperandsRefused : Obligations.OutOfRangeOperandsRefused := by
  intro f
  cases h : f.check with
  | none =>
    obtain ⟨i, rfl⟩ := FieldSet.exists_fields_of_check h
    simp [encodeFields_fields, FieldSet.wellFormed, h, Instr.fields_injective.eq_iff]
  | some e =>
    have hnone (i : Instr) : i.fields ≠ f := by
      rintro rfl
      simp [Instr.check_fields] at h
    simp [encodeFields_of_check h, FieldSet.wellFormed, h, hnone]

end Sys2Proof
end

section
/-! PROOFS. The object file's loader (R66, R67): a line of two upper-case hexadecimal digits is the text of one byte,
and nothing else loads. -/

namespace Sys2Proof.Machine

/-! ## One digit, one line -/

theorem hexValue_hexDigit {n : Nat} (h : n < 16) : hexValue (hexDigit n) = some n := by
  revert n
  decide

theorem hexValue_eq_some {c : Char} {n : Nat} (h : hexValue c = some n) : n < 16 ∧ c = hexDigit n := by
  obtain ⟨hn, hc, -⟩ := List.findIdx?_eq_some_iff_getElem.1 h
  exact ⟨hn, by simpa [hexDigit, hn] using (of_decide_eq_true hc).symm⟩

/-- The two digits of a byte are read back as that byte (R37, G1). -/
theorem parseHexByte_hex2 (b : Byte) : parseHexByte (hex2 b) = .ok b := by
  have hlt : b.toNat < 256 := b.isLt
  have hbyte : 16 * (b.toNat / 16) + b.toNat % 16 = b.toNat := Nat.div_add_mod _ _
  have hhigh : b.toNat / 16 < 16 := by omega
  have hlow : b.toNat % 16 < 16 := by omega
  simp [parseHexByte, hex2, hexValue_hexDigit hhigh, hexValue_hexDigit hlow, hbyte]

/-- A line that is read as a byte holds the two digits of that byte. -/
theorem parseHexByte_eq_ok {l : Text} {b : Byte} (h : parseHexByte l = .ok b) : l = hex2 b := by
  unfold parseHexByte at h
  split at h
  next c d =>
    split at h
    next hi lo hhi hlo =>
      obtain ⟨hhi16, rfl⟩ := hexValue_eq_some hhi
      obtain ⟨hlo16, rfl⟩ := hexValue_eq_some hlo
      obtain rfl := Except.ok.inj h
      have hnat : (BitVec.ofNat 8 (16 * hi + lo)).toNat = 16 * hi + lo := by
        rw [BitVec.toNat_ofNat]
        omega
      have hhigh : (16 * hi + lo) / 16 = hi := by omega
      have hlow : (16 * hi + lo) % 16 = lo := by omega
      rw [hex2, hnat, hhigh, hlow]
    next => cases h
  next => cases h

theorem parseHexByte_error {l : Text} {e : ToolStop} (h : parseHexByte l = .error e) : e = .badFormat := by
  unfold parseHexByte at h
  split at h
  next =>
    split at h
    next => cases h
    next => exact (Except.error.inj h).symm
  next => exact (Except.error.inj h).symm

/-! ## All lines -/

theorem parseHexBytes_map_hex2 (p : List Byte) : parseHexBytes (p.map hex2) = .ok p := by
  induction p with
  | nil => rfl
  | cons b p ih => simp [parseHexBytes, parseHexByte_hex2, ih]

theorem parseHexBytes_eq_ok {ls : List Text} {p : List Byte} (h : parseHexBytes ls = .ok p) : ls = p.map hex2 := by
  induction ls generalizing p with
  | nil =>
    obtain rfl := Except.ok.inj h
    rfl
  | cons l ls ih =>
    unfold parseHexBytes at h
    split at h
    next => cases h
    next b hb =>
      split at h
      next => cases h
      next bs hbs =>
        obtain rfl := Except.ok.inj h
        rw [List.map_cons, parseHexByte_eq_ok hb, ih hbs]

theorem parseHexBytes_error {ls : List Text} {e : ToolStop} (h : parseHexBytes ls = .error e) : e = .badFormat := by
  induction ls with
  | nil => cases h
  | cons l ls ih =>
    unfold parseHexBytes at h
    split at h
    next e' he =>
      obtain rfl := Except.error.inj h
      exact parseHexByte_error he
    next b hb =>
      split at h
      next e' he =>
        obtain rfl := Except.error.inj h
        exact ih he
      next => cases h

/-! ## The loader (R67) -/

theorem loadObject_objectFile (p : List Byte) : loadObject (objectFile p) = .ok p := by
  simp [loadObject, objectFile, parseHexBytes_map_hex2]

theorem loadObject_eq_ok {ls : List Text} {p : List Byte} (h : loadObject ls = .ok p) : ls = objectFile p := by
  unfold loadObject at h
  split at h
  next => cases h
  next m ls =>
    split at h
    next hm => rw [objectFile, hm, parseHexBytes_eq_ok h]
    next => cases h

theorem loadObject_error {ls : List Text} {e : ToolStop} (h : loadObject ls = .error e) : e = .badFormat := by
  unfold loadObject at h
  split at h
  next => exact (Except.error.inj h).symm
  next m ls =>
    split at h
    next => exact parseHexBytes_error h
    next => exact (Except.error.inj h).symm

/-- Settles O47. -/
theorem loaderAcceptsExactlyTheFormat : Obligations.LoaderAcceptsExactlyTheFormat := by
  refine ⟨fun ls p => ⟨loadObject_eq_ok, ?_⟩, fun ls e => loadObject_error, fun p => ?_⟩
  · rintro rfl
    exact loadObject_objectFile p
  · simp [loadDecoded, loadObject_objectFile]

end Sys2Proof.Machine
end

section
/-! PROOFS. The Label Table (R61) and Pass 1's labels (R62): binding adds one name, so a pass that succeeds has met no
name twice, and one that fails names a name met twice or an empty label. -/

namespace Sys2Proof.Machine

/-! ## The Label Table (R61) -/

theorem LabelTable.find_eq_none_iff {t : LabelTable} {name : Text} : t.find name = none ↔ ∀ e ∈ t, e.1 ≠ name := by
  simp [LabelTable.find]

/-- What `bind` can do: a new name is added at the end. -/
theorem LabelTable.bind_eq_ok_iff {t t' : LabelTable} {name : Text} {a : Nat} :
    t.bind name a = .ok t' ↔ name ≠ [] ∧ t.find name = none ∧ t' = t ++ [(name, a)] := by
  unfold LabelTable.bind
  by_cases hempty : name = []
  · simp [hempty]
  · cases hfind : t.find name <;> simp [hempty, eq_comm]

/-- How `bind` fails: on an empty name, or on a name already bound. -/
theorem LabelTable.bind_error {t : LabelTable} {name : Text} {a : Nat} {e : ToolStop} (h : t.bind name a = .error e) :
    (name = [] ∧ e = .labelText []) ∨ (t.find name ≠ none ∧ e = .duplicateLabel name) := by
  unfold LabelTable.bind at h
  split at h
  next hempty => exact .inl ⟨hempty, hempty ▸ (Except.error.inj h).symm⟩
  next =>
    split at h
    next hfind => exact .inr ⟨by simp [hfind], (Except.error.inj h).symm⟩
    next => cases h

/-- A name bound last is found there unless it was bound before; the others are found as before. -/
theorem LabelTable.find_concat (t : LabelTable) (name other : Text) (a : Nat) :
    LabelTable.find (t ++ [(name, a)]) other = (t.find other).or (if name = other then some a else none) := by
  unfold LabelTable.find
  rw [List.find?_append, Option.map_or]
  by_cases h : name = other <;> simp [h]

theorem LabelTable.resolve_of_find {t : LabelTable} {name : Text} {a : Nat} (h : t.find name = some a) :
    t.resolve name = .ok a := by
  simp [LabelTable.resolve, h]

/-- A name that equals no key, trimmed or not, is unknown. -/
theorem LabelTable.resolve_unknown {t : LabelTable} {name : Text} (h : ∀ e ∈ t, e.1 ≠ name ∧ trim e.1 ≠ name) :
    t.resolve name = .error (.unknownLabel name) := by
  have hfind : t.find name = none := LabelTable.find_eq_none_iff.2 fun e he => (h e he).1
  have htrim : t.any (fun e => trim e.1 = name) = false := by simpa using fun k v he => (h (k, v) he).2
  simp only [LabelTable.resolve, hfind, htrim]
  rfl

/-- Settles O49. -/
theorem labelTableLaws : Obligations.LabelTableLaws := by
  intro t t' name a h
  obtain ⟨hname, hnew, rfl⟩ := LabelTable.bind_eq_ok_iff.1 h
  have hfind : LabelTable.find (t ++ [(name, a)]) name = some a := by simp [LabelTable.find_concat, hnew]
  refine ⟨LabelTable.resolve_of_find hfind, fun b => ?_, fun other hother => ?_,
    fun other => LabelTable.resolve_unknown⟩
  · simp [LabelTable.bind, hname, hfind]
  · simp [LabelTable.find_concat, hother.symm]

/-! ## Pass 1, line by line (R62) -/

/-- How binding a line's label fails: on an empty label, or on one already bound. -/
theorem bindLabel_error {t : LabelTable} {label : Option Text} {a : Nat} {e : ToolStop}
    (h : bindLabel t label a = .error e) :
    (label = some [] ∧ e = .labelText []) ∨
      ∃ name, label = some name ∧ t.find name ≠ none ∧ e = .duplicateLabel name := by
  cases label with
  | none => cases h
  | some name =>
    obtain ⟨rfl, he⟩ | ⟨hbound, he⟩ := LabelTable.bind_error h
    · exact .inl ⟨rfl, he⟩
    · exact .inr ⟨name, rfl, hbound, he⟩

section Layout
variable {a : Nat} {t tt : LabelTable} {l : Text} {rest : List Text} {rs : List LineRecord} {e : ToolStop}

/-- Pass 1 that succeeds has bound the first line's label, recorded that line, and gone on. -/
theorem layoutFrom_cons_ok (h : layoutFrom a t (l :: rest) = .ok (rs, tt)) :
    ∃ a' t' rs', bindLabel t (splitLine l).label a = .ok t' ∧ layoutFrom a' t' rest = .ok (rs', tt) ∧
      rs = ⟨a, splitLine l⟩ :: rs' := by
  unfold layoutFrom at h
  split at h
  next => cases h
  next t' hbind =>
    split at h
    next => cases h
    next rs' _ hrest =>
      obtain ⟨rfl, rfl⟩ := Prod.mk.inj (Except.ok.inj h)
      exact ⟨_, t', rs', hbind, hrest, rfl⟩

/-- Pass 1 that fails did so at the first line's label or after it. -/
theorem layoutFrom_cons_error (h : layoutFrom a t (l :: rest) = .error e) :
    bindLabel t (splitLine l).label a = .error e ∨
      ∃ a' t', bindLabel t (splitLine l).label a = .ok t' ∧ layoutFrom a' t' rest = .error e := by
  unfold layoutFrom at h
  split at h
  next hbind => exact .inl (Except.error.inj h ▸ hbind)
  next t' hbind =>
    split at h
    next hrest => exact .inr ⟨_, t', hbind, Except.error.inj h ▸ hrest⟩
    next => cases h

end Layout

/-! ## Labels met by Pass 1 -/

/-- How often Pass 1 meets a name, from the table `t` on: once if it is bound there, and once for each line that carries
it. -/
def timesMet (t : LabelTable) (name : Text) (src : List Text) : Nat :=
  (if (t.find name).isSome then 1 else 0) + src.countP fun l => (splitLine l).label = some name

@[simp] theorem timesMet_nil_table (name : Text) (src : List Text) :
    timesMet [] name src = src.countP fun l => (splitLine l).label = some name := by
  simp [timesMet, LabelTable.find]

theorem timesMet_nil_le (t : LabelTable) (name : Text) : timesMet t name [] ≤ 1 := by
  unfold timesMet
  split <;> simp

/-- Binding a line's label moves it from the lines to come into the table, for every name. -/
theorem timesMet_bindLabel {t t' : LabelTable} {a : Nat} {l : Text} (h : bindLabel t (splitLine l).label a = .ok t')
    (name : Text) (rest : List Text) : timesMet t' name rest = timesMet t name (l :: rest) := by
  unfold timesMet
  cases hl : (splitLine l).label with
  | none =>
    rw [hl] at h
    obtain rfl : t = t' := Except.ok.inj h
    simp [hl]
  | some bound =>
    rw [hl] at h
    obtain ⟨-, hnew, rfl⟩ := LabelTable.bind_eq_ok_iff.1 h
    rw [LabelTable.find_concat]
    by_cases hb : bound = name
    · subst hb
      simp [hl, hnew, Nat.add_comm]
    · simp [hl, hb]

/-- Pass 1 that succeeds has met no name twice. -/
theorem layoutFrom_ok_timesMet {a : Nat} {t tt : LabelTable} {src : List Text} {rs : List LineRecord}
    (h : layoutFrom a t src = .ok (rs, tt)) (name : Text) : timesMet t name src ≤ 1 := by
  induction src generalizing a t rs with
  | nil => exact timesMet_nil_le t name
  | cons l rest ih =>
    obtain ⟨a', t', rs', hbind, hrest, -⟩ := layoutFrom_cons_ok h
    exact timesMet_bindLabel hbind name rest ▸ ih hrest

/-- Pass 1 that fails has met an empty label, or names a label it has met twice. -/
theorem layoutFrom_error {a : Nat} {t : LabelTable} {src : List Text} {e : ToolStop}
    (h : layoutFrom a t src = .error e) :
    ((∃ l ∈ src, (splitLine l).label = some []) ∧ e = .labelText []) ∨
      ∃ name, e = .duplicateLabel name ∧ 2 ≤ timesMet t name src := by
  induction src generalizing a t with
  | nil => cases h
  | cons l rest ih =>
    obtain hbind | ⟨a', t', hbind, hrest⟩ := layoutFrom_cons_error h
    · obtain ⟨hempty, he⟩ | ⟨name, hl, hbound, he⟩ := bindLabel_error hbind
      · exact .inl ⟨⟨l, List.mem_cons_self, hempty⟩, he⟩
      · refine .inr ⟨name, he, ?_⟩
        rw [timesMet, if_pos (Option.isSome_iff_ne_none.2 hbound), List.countP_cons_of_pos (by simp [hl])]
        omega
    · obtain ⟨⟨l', hl', hempty⟩, he⟩ | ⟨name, he, hmet⟩ := ih hrest
      · exact .inl ⟨⟨l', List.mem_cons_of_mem _ hl', hempty⟩, he⟩
      · exact .inr ⟨name, he, timesMet_bindLabel hbind name rest ▸ hmet⟩

theorem assemble_of_layoutFrom_error {src : List Text} {e : ToolStop} (h : layoutFrom 0 [] src = .error e) :
    assemble src = .error e := by
  simp [assemble, pass1, h]

/-- A source with one label on two lines stops in Pass 1, at an empty label or at a label carried twice. -/
theorem assemble_duplicate {src : List Text} {name : Text}
    (h : 2 ≤ src.countP fun l => (splitLine l).label = some name) :
    ((∃ l ∈ src, (splitLine l).label = some []) ∧ assemble src = .error (.labelText [])) ∨
      ∃ n, assemble src = .error (.duplicateLabel n) ∧ 2 ≤ src.countP fun l => (splitLine l).label = some n := by
  cases hlayout : layoutFrom 0 [] src with
  | ok p =>
    have hle := layoutFrom_ok_timesMet hlayout name
    rw [timesMet_nil_table] at hle
    omega
  | error e =>
    have hasm := assemble_of_layoutFrom_error hlayout
    obtain ⟨hempty, rfl⟩ | ⟨n, rfl, hmet⟩ := layoutFrom_error hlayout
    · exact .inl ⟨hempty, hasm⟩
    · exact .inr ⟨n, hasm, timesMet_nil_table n src ▸ hmet⟩

/-- Settles O50. -/
theorem duplicateLabelFails : Obligations.DuplicateLabelFails := by
  intro src name h
  obtain ⟨⟨l, hl, hempty⟩, hasm⟩ | hdup := assemble_duplicate h
  · exact ⟨fun hne => absurd hempty (hne l hl), fun _ => .inl hasm⟩
  · exact ⟨fun _ => hdup, fun _ => .inr hdup⟩

end Sys2Proof.Machine
end

section
/-! PROOFS. What the assembler makes of a whole source: one byte for each line with instruction text (R62, R63), and the
same result with the comments cut off (R57). -/

namespace Sys2Proof.Machine

/-! ## N is the number of lines with an instruction (R62, R63) -/

/-- Pass 1 records every line, in order. -/
theorem layoutFrom_lines {a : Nat} {t tt : LabelTable} {src : List Text} {rs : List LineRecord}
    (h : layoutFrom a t src = .ok (rs, tt)) : rs.map LineRecord.line = src.map splitLine := by
  induction src generalizing a t rs with
  | nil =>
    obtain ⟨rfl, -⟩ := Prod.mk.inj (Except.ok.inj h)
    rfl
  | cons l rest ih =>
    obtain ⟨a', t', rs', -, hrest, rfl⟩ := layoutFrom_cons_ok h
    rw [List.map_cons, List.map_cons, ih hrest]

theorem pass1_ok {src : List Text} {rs : List LineRecord} {t : LabelTable} (h : pass1 src = .ok (rs, t)) :
    layoutFrom 0 [] src = .ok (rs, t) := by
  unfold pass1 at h
  split at h
  next => cases h
  next hlayout =>
    split at h
    next => cases h
    next => exact hlayout.trans h

theorem assemble_ok {src : List Text} {p : List Byte} (h : assemble src = .ok p) :
    ∃ rs t, layoutFrom 0 [] src = .ok (rs, t) ∧ pass2 t (instructionRecords rs) = .ok p := by
  unfold assemble at h
  split at h
  next => cases h
  next hpass1 => exact ⟨_, _, pass1_ok hpass1, h⟩

/-- Pass 2 that succeeds has encoded the first record and gone on. -/
theorem pass2_cons_ok {t : LabelTable} {r : LineRecord} {rs : List LineRecord} {p : List Byte}
    (h : pass2 t (r :: rs) = .ok p) : ∃ i p', pass2 t rs = .ok p' ∧ p = encode i :: p' := by
  unfold pass2 at h
  split at h
  next => cases h
  next i _ =>
    split at h
    next => cases h
    next p' hrest => exact ⟨i, p', hrest, (Except.ok.inj h).symm⟩

/-- Pass 2 gives one byte a record. -/
theorem pass2_length {t : LabelTable} {rs : List LineRecord} {p : List Byte} (h : pass2 t rs = .ok p) :
    p.length = rs.length := by
  induction rs generalizing p with
  | nil =>
    obtain rfl := Except.ok.inj h
    rfl
  | cons r rs ih =>
    obtain ⟨i, p', hrest, rfl⟩ := pass2_cons_ok h
    rw [List.length_cons, List.length_cons, ih hrest]

/-- Settles O52: a byte a record with an instruction, and a record a line. -/
theorem assembledLength : Obligations.AssembledLength := by
  intro src p h
  obtain ⟨rs, t, hlayout, hpass2⟩ := assemble_ok h
  calc p.length = (instructionRecords rs).length := pass2_length hpass2
    _ = ((rs.map LineRecord.line).filter fun l => l.code ≠ []).length := by
      rw [List.filter_map, List.length_map]
      rfl
    _ = (src.filter fun l => (splitLine l).code ≠ []).length := by
      rw [layoutFrom_lines hlayout, List.filter_map, List.length_map]
      rfl

/-! ## Comments (R57) -/

/-- A line record without its comment. -/
def LineRecord.dropComment (r : LineRecord) : LineRecord := { r with line := { r.line with comment := none } }

/-- Cutting at the first `d` leaves no `d` to cut at. -/
theorem splitFirst_cut (d : Char) (l : Text) : splitFirst d (splitFirst d l).1 = ((splitFirst d l).1, none) := by
  induction l with
  | nil => rfl
  | cons c l ih =>
    by_cases hc : c = d
    · simp [splitFirst, hc]
    · simp [splitFirst, hc, ih]

/-- A line cut at its first `;` is the same line without its comment. -/
theorem splitLine_cut (l : Text) : splitLine (splitFirst ';' l).1 = { splitLine l with comment := none } := by
  simp only [splitLine, splitFirst_cut]
  split <;> rfl

/-- Pass 1 does not look at comments. -/
theorem layoutFrom_cut (a : Nat) (t : LabelTable) (src : List Text) :
    layoutFrom a t (src.map fun l => (splitFirst ';' l).1) =
      (layoutFrom a t src).map (Prod.map (List.map LineRecord.dropComment) id) := by
  induction src generalizing a t with
  | nil => rfl
  | cons l rest ih =>
    simp only [List.map_cons, layoutFrom, splitLine_cut]
    cases bindLabel t (splitLine l).label a with
    | error e => rfl
    | ok t' =>
      simp only [ih]
      cases layoutFrom (if (splitLine l).code = [] then a else a + 1) t' rest <;> rfl

theorem instructionRecords_dropComment (rs : List LineRecord) :
    instructionRecords (rs.map LineRecord.dropComment) = (instructionRecords rs).map LineRecord.dropComment :=
  List.filter_map

theorem pass1_cut (src : List Text) :
    pass1 (src.map fun l => (splitFirst ';' l).1) =
      (pass1 src).map (Prod.map (List.map LineRecord.dropComment) id) := by
  unfold pass1
  rw [layoutFrom_cut]
  cases layoutFrom 0 [] src with
  | error e => rfl
  | ok p =>
    obtain ⟨rs, t⟩ := p
    simp only [Except.map, Prod.map, id, instructionRecords_dropComment, List.length_map]
    split <;> rfl

/-- Neither does Pass 2. -/
theorem pass2_dropComment (t : LabelTable) (rs : List LineRecord) :
    pass2 t (rs.map LineRecord.dropComment) = pass2 t rs := by
  induction rs with
  | nil => rfl
  | cons r rs ih => simp [pass2, ih, LineRecord.dropComment]

/-- Settles O51: Pass 1 on the cut source answers the same records without their comments, and no comment enters
Pass 2. -/
theorem commentsChangeNothing : Obligations.CommentsChangeNothing := by
  intro src
  unfold assemble
  rw [pass1_cut]
  cases pass1 src with
  | error e => rfl
  | ok p =>
    obtain ⟨rs, t⟩ := p
    simp [Except.map, instructionRecords_dropComment, pass2_dropComment]

end Sys2Proof.Machine
end

section
/-! PROOFS. Disassembly and assembly (R60, R63, R64, D15): the words of a disassembled instruction are its tokens, each
is looked up as what it names, and a source of such lines has no label and no comment. -/

namespace Sys2Proof.Machine

/-! ## Words with single spaces between them -/

/-- A word of a source line: not empty, without whitespace and without a delimiter of R57. -/
structure IsWord (w : Text) : Prop where
  ne_nil : w ≠ []
  not_blank : ∀ c ∈ w, isBlank c = false
  no_colon : ':' ∉ w
  no_semicolon : ';' ∉ w

/-- A first word and the words after it, one space between: the form of `disassemble` (D15). -/
def unwords (w : Text) (ws : List Text) : Text := w ++ ws.flatMap fun t => ' ' :: t

@[simp] theorem unwords_nil (w : Text) : unwords w [] = w := by simp [unwords]

theorem unwords_cons (w v : Text) (ws : List Text) : unwords w (v :: ws) = w ++ ' ' :: unwords v ws := by
  simp [unwords]

/-- The characters of a word are taken up into the current token. -/
theorem tokensFrom_append {w : Text} (h : ∀ c ∈ w, isBlank c = false) (cur rest : Text) :
    tokensFrom cur (w ++ rest) = tokensFrom (w.reverse ++ cur) rest := by
  induction w generalizing cur with
  | nil => rfl
  | cons c w ih =>
    have hc : isBlank c = false := h c List.mem_cons_self
    simp [tokensFrom, hc, ih fun d hd => h d (List.mem_cons_of_mem _ hd)]

/-- The tokens of words with spaces between them are the words (R57). -/
theorem tokens_unwords {w : Text} {ws : List Text} (hw : IsWord w) (hws : ∀ v ∈ ws, IsWord v) :
    tokens (unwords w ws) = w :: ws := by
  unfold tokens
  induction ws generalizing w with
  | nil =>
    have hread := tokensFrom_append hw.not_blank [] []
    simpa [tokensFrom, hw.ne_nil] using hread
  | cons v ws ih =>
    have hblank : isBlank ' ' = true := rfl
    have hrest := ih (hws v List.mem_cons_self) fun u hu => hws u (List.mem_cons_of_mem _ hu)
    rw [unwords_cons, tokensFrom_append hw.not_blank]
    simp [tokensFrom, hblank, hw.ne_nil, hrest]

theorem not_mem_unwords {d : Char} (hd : d ≠ ' ') {w : Text} {ws : List Text} (hw : d ∉ w) (hws : ∀ v ∈ ws, d ∉ v) :
    d ∉ unwords w ws := by
  simpa [unwords, hw, hd] using hws

theorem unwords_ne_nil {w : Text} (hw : w ≠ []) (ws : List Text) : unwords w ws ≠ [] := by
  simp [unwords, hw]

/-- The last character of words with spaces between them is one of a word. -/
theorem isBlank_getLast_unwords {w : Text} {ws : List Text} (hw : IsWord w) (hws : ∀ v ∈ ws, IsWord v) {c : Char}
    (hc : c ∈ (unwords w ws).getLast?) : isBlank c = false := by
  induction ws generalizing w with
  | nil =>
    rw [unwords_nil] at hc
    exact hw.not_blank c (List.mem_of_mem_getLast? hc)
  | cons v ws ih =>
    have hv := hws v List.mem_cons_self
    rw [unwords_cons, List.getLast?_append_of_ne_nil _ (List.cons_ne_nil _ _),
      List.getLast?_cons_of_ne_nil (unwords_ne_nil hv.ne_nil ws)] at hc
    exact ih hv (fun u hu => hws u (List.mem_cons_of_mem _ hu)) hc

theorem dropWhile_isBlank_eq_self {t : Text} (h : ∀ c ∈ t.head?, isBlank c = false) : t.dropWhile isBlank = t := by
  cases t with
  | nil => rfl
  | cons c t => simp [List.dropWhile, h c rfl]

/-- Words with spaces between them begin and end without whitespace. -/
theorem trim_unwords {w : Text} {ws : List Text} (hw : IsWord w) (hws : ∀ v ∈ ws, IsWord v) :
    trim (unwords w ws) = unwords w ws := by
  have hfirst : ∀ c ∈ (unwords w ws).head?, isBlank c = false := by
    intro c hc
    rw [unwords, List.head?_append_of_ne_nil _ hw.ne_nil] at hc
    exact hw.not_blank c (List.mem_of_mem_head? hc)
  have hlast : ∀ c ∈ (unwords w ws).reverse.head?, isBlank c = false := by
    rw [List.head?_reverse]
    exact fun c => isBlank_getLast_unwords hw hws
  rw [trim, dropWhile_isBlank_eq_self hfirst, dropWhile_isBlank_eq_self hlast, List.reverse_reverse]

theorem splitFirst_of_not_mem {d : Char} {l : Text} (h : d ∉ l) : splitFirst d l = (l, none) := by
  induction l with
  | nil => rfl
  | cons c l ih =>
    obtain ⟨hc, hl⟩ := List.ne_and_not_mem_of_not_mem_cons h
    simp [splitFirst, hc.symm, ih hl]

/-- A line of words is its own instruction text, without label or comment (R57). -/
theorem splitLine_unwords {w : Text} {ws : List Text} (hw : IsWord w) (hws : ∀ v ∈ ws, IsWord v) :
    splitLine (unwords w ws) = ⟨none, unwords w ws, none⟩ := by
  have hsemi := splitFirst_of_not_mem
    (not_mem_unwords (d := ';') (by decide) hw.no_semicolon fun v hv => (hws v hv).no_semicolon)
  have hcolon := splitFirst_of_not_mem
    (not_mem_unwords (d := ':') (by decide) hw.no_colon fun v hv => (hws v hv).no_colon)
  simp [splitLine, hsemi, hcolon, trim_unwords hw hws]

/-! ## The words of a disassembled instruction (R58, R59, R64) -/

theorem isWord_mnemonicText (o : Opcode) : IsWord (mnemonicText o) := by
  constructor <;> cases o <;> simp [mnemonicText, isBlank]

theorem isWord_regText (r : Reg) : IsWord (regText r) := by
  constructor <;> cases r <;> simp [regText, isBlank]

theorem isWord_operandTexts {i : Instr} (h : i.opcode ≠ .bnz) : ∀ v ∈ operandTexts i, IsWord v := by
  cases i with
  | add rd rn rm => simp [operandTexts, isWord_regText]
  | and rd rn rm => simp [operandTexts, isWord_regText]
  | not rd rn => simp [operandTexts, isWord_regText]
  | bnz addr => exact absurd rfl h

@[simp] theorem lookupMnemonic_mnemonicText (o : Opcode) : lookupMnemonic (mnemonicText o) = .ok o := by
  cases o <;> rfl

@[simp] theorem lookupReg_regText (r : Reg) : lookupReg (regText r) = .ok r := by
  cases r <;> rfl

theorem parseThree_regText (mk : Reg → Reg → Reg → Instr) (m : Text) (rd rn rm : Reg) :
    parseThree mk m [regText rd, regText rn, regText rm] = .ok (mk rd rn rm) := by
  simp only [parseThree, lookupReg_regText]
  rfl

theorem parseTwo_regText (mk : Reg → Reg → Instr) (m : Text) (rd rn : Reg) :
    parseTwo mk m [regText rd, regText rn] = .ok (mk rd rn) := by
  simp only [parseTwo, lookupReg_regText]
  rfl

section NoBranch
variable {i : Instr} (h : i.opcode ≠ .bnz)
include h

theorem splitLine_disassemble : splitLine (disassemble i) = ⟨none, disassemble i, none⟩ :=
  splitLine_unwords (isWord_mnemonicText i.opcode) (isWord_operandTexts h)

/-- A disassembled instruction is parsed as that instruction, whatever the labels (R60). -/
theorem parseInstr_disassemble (t : LabelTable) : parseInstr t (disassemble i) = .ok i := by
  have htok : tokens (disassemble i) = mnemonicText i.opcode :: operandTexts i :=
    tokens_unwords (isWord_mnemonicText i.opcode) (isWord_operandTexts h)
  unfold parseInstr
  rw [htok]
  cases i with
  | add rd rn rm => simp [Instr.opcode, operandTexts, parseThree_regText]
  | and rd rn rm => simp [Instr.opcode, operandTexts, parseThree_regText]
  | not rd rn => simp [Instr.opcode, operandTexts, parseTwo_regText]
  | bnz addr => exact absurd rfl h

end NoBranch

theorem disassemble_ne_nil (i : Instr) : disassemble i ≠ [] := by
  cases i <;> simp [disassemble, Instr.opcode, mnemonicText]

/-! ## The two passes on disassembled lines -/

/-- Without labels Pass 1 succeeds and leaves the table as it is. -/
theorem layoutFrom_of_no_label (a : Nat) (t : LabelTable) {src : List Text}
    (h : ∀ l ∈ src, (splitLine l).label = none) : ∃ rs, layoutFrom a t src = .ok (rs, t) := by
  induction src generalizing a with
  | nil => exact ⟨[], rfl⟩
  | cons l rest ih =>
    have hl := h l List.mem_cons_self
    obtain ⟨rs, hrest⟩ := ih (if (splitLine l).code = [] then a else a + 1) fun m hm => h m (List.mem_cons_of_mem _ hm)
    exact ⟨⟨a, splitLine l⟩ :: rs, by simp [layoutFrom, hl, bindLabel, hrest]⟩

theorem pass1_of_no_label {src : List Text} (h : ∀ l ∈ src, (splitLine l).label = none) :
    ∃ rs, pass1 src = .ok (rs, []) ∧ rs.map LineRecord.line = src.map splitLine := by
  obtain ⟨rs, hlayout⟩ := layoutFrom_of_no_label 0 [] h
  exact ⟨rs, by simp [pass1, hlayout], layoutFrom_lines hlayout⟩

/-- Pass 2 on records of disassembled lines gives the bytes of their instructions. -/
theorem pass2_disassemble (t : LabelTable) {prog : List Instr} (hprog : ∀ i ∈ prog, i.opcode ≠ .bnz)
    {rs : List LineRecord} (hcodes : rs.map (fun r => r.line.code) = prog.map disassemble) :
    pass2 t rs = .ok (prog.map encode) := by
  induction prog generalizing rs with
  | nil =>
    obtain rfl := List.map_eq_nil_iff.1 hcodes
    rfl
  | cons i prog ih =>
    obtain ⟨r, rs, rfl, hcode, hrest⟩ := List.map_eq_cons_iff.1 hcodes
    have hi := parseInstr_disassemble (hprog i List.mem_cons_self) t
    simp [pass2, hcode, hi, ih (fun j hj => hprog j (List.mem_cons_of_mem _ hj)) hrest]

/-- Settles O48: Pass 1 meets no label and records the disassembled lines, each of them an instruction, and Pass 2
parses each as the instruction it was. -/
theorem disassemblyReassembles : Obligations.DisassemblyReassembles := by
  intro prog hprog
  have hsplit : ∀ i ∈ prog, splitLine (disassemble i) = ⟨none, disassemble i, none⟩ :=
    fun i hi => splitLine_disassemble (hprog i hi)
  have hlabels : ∀ l ∈ prog.map disassemble, (splitLine l).label = none :=
    List.forall_mem_map.2 fun i hi => by rw [hsplit i hi]
  obtain ⟨rs, hpass1, hlines⟩ := pass1_of_no_label hlabels
  have hcodes : rs.map (fun r => r.line.code) = prog.map disassemble := by
    calc rs.map (fun r => r.line.code)
        = (rs.map LineRecord.line).map SourceLine.code := by simp
      _ = prog.map fun i => (splitLine (disassemble i)).code := by simp [hlines]
      _ = prog.map disassemble := List.map_congr_left fun i hi => by rw [hsplit i hi]
  have hall : instructionRecords rs = rs := by
    refine List.filter_eq_self.2 fun r hr => decide_eq_true fun hnil => ?_
    have hmem : r.line.code ∈ prog.map disassemble := hcodes ▸ List.mem_map_of_mem hr
    obtain ⟨i, -, hi⟩ := List.mem_map.1 hmem
    exact disassemble_ne_nil i (hi.trans hnil)
  simp only [assemble, hpass1, hall, pass2_disassemble [] hprog hcodes]

end Sys2Proof.Machine
end

section
/-! PROOFS. ADD, AND and NOT (R80 to R83): the whole next state of each, its frame, the signed reading of ADD (R85) and
the idioms (R87). Each is a fact about the byte `resultOf` names. -/

namespace Sys2Proof.Machine

/-! ## The next state (R80) -/

section Next
variable {i : Instr} {rd : Reg} {s : State} {v : Byte}

/-- From every pc a step may begin at, an instruction with a destination completes, and this is its next state. -/
theorem exec_of_dest (hd : i.dest = some rd) (hpc : s.pc.toNat ≤ 62) (hv : resultOf i s = v) :
    exec i s = .next { s with regs := s.regs.set rd v, z := decide (v = 0#8), pc := s.pc + 1#6 } :=
  (exec_next_iff_of_dest hd).2 ⟨pc_ne_wrap hpc, by rw [hv]; rfl⟩

variable {t : State} (h : exec i s = .next t)
include h

/-- The destination holds the result. -/
theorem exec_get_dest (hd : i.dest = some rd) : t.regs.get rd = resultOf i s := by
  obtain ⟨-, rfl⟩ := (exec_next_iff_of_dest hd).1 h
  simp

/-- The flag is 1 iff the destination's new value is 0 (R80 (d)). -/
theorem exec_z_iff (hd : i.dest = some rd) : t.z = true ↔ t.regs.get rd = 0#8 := by
  obtain ⟨hz, -⟩ := zeroFlagWritersAndReaders params i s t h
  exact hz rd hd

end Next

/-- Settles O14: what no instruction changes, and the registers that are not the destination. -/
theorem aluFrame : Obligations.AluFrame := by
  intro i rd s t hd h
  obtain ⟨hcyc, hstatus, hstore, hlen, hbudget, hdisasm, hobs⟩ := exec_keeps h
  have hregs : ∀ r, r ≠ rd → t.regs.get r = s.regs.get r := fun r hr =>
    exec_keeps_reg h fun hr' => hr (Option.some.inj (hr'.symm.trans hd))
  exact ⟨hregs, fun a => by rw [hstore], hstore, hcyc, hstatus, hlen, hbudget, hdisasm, hobs⟩

section Values
variable {rd rn rm : Reg} {s t : State}

theorem exec_add_get (h : exec (.add rd rn rm) s = .next t) : t.regs.get rd = s.regs.get rn + s.regs.get rm :=
  exec_get_dest h rfl

theorem exec_and_get (h : exec (.and rd rn rm) s = .next t) : t.regs.get rd = s.regs.get rn &&& s.regs.get rm :=
  exec_get_dest h rfl

theorem exec_not_get (h : exec (.not rd rn) s = .next t) : t.regs.get rd = ~~~ s.regs.get rn :=
  exec_get_dest h rfl

theorem exec_not_keeps_reg (h : exec (.not rd rn) s = .next t) {r : Reg} (hr : rd ≠ r) :
    t.regs.get r = s.regs.get r :=
  exec_keeps_reg h fun hr' => hr (Option.some.inj hr')

end Values

/-! ## ADD as signed addition (R85) -/

/-- Settles O18: addition on bit vectors has this signed reading. -/
theorem addAsSignedAddition : Obligations.AddAsSignedAddition := by
  intro rd rn rm s t h
  rw [exec_add_get h]
  exact BitVec.toInt_add _ _

/-! ## The idioms (R87) -/

section Idioms
variable {d k src u : Reg} {s t w : State}

theorem move_get (h : exec (.and d src src) s = .next t) : t.regs.get d = s.regs.get src := by
  rw [exec_and_get h, BitVec.and_self]

/-- A register moved to itself is kept, as every other register is. -/
theorem moveToSelf_regs (h : exec (.and src src src) s = .next t) : t.regs = s.regs := by
  refine Regs.ext_get fun r => ?_
  by_cases hr : r = src
  · rw [hr, move_get h]
  · exact exec_keeps_reg h fun hr' => hr (Option.some.inj hr').symm

theorem moveToSelf_z_iff (h : exec (.and src src src) s = .next t) : t.z = true ↔ s.regs.get src = 0#8 := by
  rw [exec_z_iff h rfl, move_get h]

theorem constantFF_get (hsrc : s.regs.get src = 0#8) (h : exec (.not d src) s = .next t) :
    t.regs.get d = 0xFF#8 := by
  rw [exec_not_get h, hsrc]
  rfl

theorem constant01_get (hk : s.regs.get k = 0xFF#8) (h : exec (.add d k k) s = .next t)
    (h' : exec (.not d d) t = .next w) : w.regs.get d = 0x01#8 := by
  rw [exec_not_get h', exec_add_get h, hk]
  rfl

theorem decrement_get (hk : s.regs.get k = 0xFF#8) (h : exec (.add d d k) s = .next t) :
    (t.regs.get d).toNat = ((s.regs.get d).toNat + 255) % 256 := by
  rw [exec_add_get h, hk]
  exact BitVec.toNat_add _ _

theorem double_get (h : exec (.add d d d) s = .next t) :
    (t.regs.get d).toNat = (2 * (s.regs.get d).toNat) % 256 := by
  rw [exec_add_get h, BitVec.toNat_add, ← two_mul]

/-- The complement plus 1 is the negation; the NOT leaves the register that holds 1. -/
theorem negate_get (hu : s.regs.get u = 0x01#8) (hne : d ≠ u) (h : exec (.not d src) s = .next t)
    (h' : exec (.add d d u) t = .next w) : w.regs.get d = - s.regs.get src := by
  rw [exec_add_get h', exec_not_get h, exec_not_keeps_reg h hne, hu, BitVec.neg_eq_not_add]

/-- A value and its complement have no bit in common; the NOT into the scratch register leaves the value. -/
theorem clear_get (hne : k ≠ d) (h : exec (.not k d) s = .next t) (h' : exec (.and d d k) t = .next w) :
    w.regs.get d = 0#8 := by
  rw [exec_and_get h', exec_not_keeps_reg h hne, exec_not_get h]
  exact BitVec.and_not_self _

end Idioms

/-- Settles O19, idiom by idiom. -/
theorem idioms : Obligations.Idioms := by
  refine ⟨fun d src s t h => move_get h, fun src s t h => ⟨moveToSelf_regs h, moveToSelf_z_iff h⟩,
    fun d src s t hsrc h => constantFF_get hsrc h, fun d f s t u hf h h' => constant01_get hf h h',
    fun d f s t hf h => decrement_get hf h, fun d s t h => double_get h,
    fun d src u s t w hu hne h h' => ?_, fun d k s t w hne h h' => ?_⟩
  · rw [negate_get hu hne h h']
    exact BitVec.toNat_neg _
  · have hclear := clear_get hne h h'
    exact ⟨hclear, (exec_z_iff h' rfl).2 hclear⟩

/-! ## The results as numbers (R81, R83, R84) -/

theorem ofNat_add_mod (a b : Byte) : BitVec.ofNat 8 ((a.toNat + b.toNat) % 256) = a + b :=
  BitVec.eq_of_toNat_eq (by simp)

theorem ofNat_255_sub (a : Byte) : BitVec.ofNat 8 (255 - a.toNat) = ~~~ a :=
  BitVec.eq_of_toNat_eq (by rw [BitVec.toNat_not, BitVec.toNat_ofNat]; omega)

/-! ## ADD, AND, NOT: next state, encoding, and the assembler form, which is the disassembly (R60) -/

/-- Settles O10: the sum modulo 256 is the addition of bytes. -/
theorem addResult : Obligations.AddResult := by
  intro rd rn rm s hpc
  obtain ⟨hbyte, -⟩ := encodeLayoutAndImage
  refine ⟨exec_of_dest rfl hpc (ofNat_add_mod _ _).symm, hbyte rd rn rm, ?_⟩
  simpa [disassemble, Instr.opcode, mnemonicText, operandTexts] using
    parseInstr_disassemble (i := .add rd rn rm) (by simp [Instr.opcode]) []

/-- Settles O11: the bits of the conjunction are the conjunctions of the bits. -/
theorem andResult : Obligations.AndResult := by
  intro rd rn rm s hpc
  obtain ⟨-, hbyte, -⟩ := encodeLayoutAndImage
  refine ⟨⟨s.regs.get rn &&& s.regs.get rm, fun k _ => BitVec.getLsbD_and, exec_of_dest rfl hpc rfl⟩,
    hbyte rd rn rm, ?_⟩
  simpa [disassemble, Instr.opcode, mnemonicText, operandTexts] using
    parseInstr_disassemble (i := .and rd rn rm) (by simp [Instr.opcode]) []

/-- Settles O12: 255 minus a byte is its complement, and the second part is decoding by position. -/
theorem notResult : Obligations.NotResult := by
  refine ⟨fun rd rn s hpc => ?_, fun b hlo hhi => ?_⟩
  · obtain ⟨-, -, hbyte, -⟩ := encodeLayoutAndImage
    refine ⟨exec_of_dest rfl hpc (ofNat_255_sub _).symm, hbyte rd rn, ?_⟩
    simpa [disassemble, Instr.opcode, mnemonicText, operandTexts] using
      parseInstr_disassemble (i := .not rd rn) (by simp [Instr.opcode]) []
  · exact ⟨_, _, decodeByte_not (by omega), index_rdField b, index_rnField b⟩

end Sys2Proof.Machine
end

section
/-! PROOFS. BNZ (R90 to R92): its frame, its whole next state and encoding, the overrun a taken branch leaves to the
next step, and the branch to itself that is taken for the rest of the budget. -/

namespace Sys2Proof.Machine

/-! ## The next state and the frame (R90) -/

@[simp] theorem branchTaken_eq_true_iff (z : Bool) : branchTaken z = true ↔ z = false := by simp [branchTaken]

/-- From every pc a step may begin at, BNZ completes, and this is its next state. -/
theorem exec_bnz (addr : Addr) {s : State} (hpc : s.pc.toNat ≤ 62) :
    exec (.bnz addr) s = .next { s with pc := if s.z = false then addr else s.pc + 1#6 } :=
  exec_bnz_next_iff.2 ⟨pc_ne_wrap hpc, by simp [branchTarget]⟩

/-- A taken BNZ only moves the pc, to its operand. -/
theorem exec_bnz_taken (addr : Addr) {s : State} (hpc : s.pc.toNat ≤ 62) (hz : s.z = false) :
    exec (.bnz addr) s = .next { s with pc := addr } :=
  (exec_bnz addr hpc).trans (by simp [hz])

theorem exec_bnz_keeps_z {addr : Addr} {s t : State} (h : exec (.bnz addr) s = .next t) : t.z = s.z := by
  obtain ⟨-, rfl⟩ := exec_bnz_next_iff.1 h
  rfl

/-- Settles O15: what no instruction changes, the flag, and every register, none being a destination. -/
theorem bnzFrame : Obligations.BnzFrame := by
  intro addr s t h
  obtain ⟨hcyc, hstatus, hstore, hlen, hbudget, hdisasm, hobs⟩ := exec_keeps h
  have hregs : ∀ r, t.regs.get r = s.regs.get r := fun r => exec_keeps_reg h (by simp [Instr.dest])
  exact ⟨hregs, exec_bnz_keeps_z h, fun a => by rw [hstore], hstore, hcyc, hstatus, hlen, hbudget, hdisasm, hobs⟩

/-! ## Encoding and assembler form (R63, R64) -/

/-- A label bound to an address that BNZ can hold is parsed as a BNZ to it (R63). -/
theorem parseTarget_of_find {t : LabelTable} {name : Text} {addr : Addr} (h : t.find name = some addr.toNat)
    (m : Text) : parseTarget t m [name] = .ok (.bnz addr) := by
  have hlt : addr.toNat < 64 := addr.isLt
  simp [parseTarget, LabelTable.resolve_of_find h, hlt]

theorem disassemble_bnz (addr : Addr) : disassemble (.bnz addr) = ['b', 'n', 'z', ' '] ++ decimal addr.toNat := by
  simp [disassemble, Instr.opcode, mnemonicText, operandTexts]

/-- The byte of a BNZ as the number the spec gives it. -/
theorem encode_bnz (addr : Addr) : encode (.bnz addr) = BitVec.ofNat 8 (0xC0 + addr.toNat) := by
  apply BitVec.eq_of_toNat_eq
  rw [encode, packB_toNat, BitVec.toNat_ofNat]
  omega

/-! ## A taken branch in a step (R92) -/

/-- The step of a taken BNZ to an address at or past N completes there, and the next one raises `ProgramOverrun`. -/
theorem bnz_taken_then_overrun (c : Params) {addr : Addr} {s : State} (hpc : s.pc.toNat ≤ 62) (hz : s.z = false)
    (hN : s.progLen ≤ addr.toNat) (haddr : addr.toNat ≤ 62) :
    ∃ t, runInstr c (.bnz addr) s = .next t ∧ t.pc = addr ∧
      stepOnce c t = .fault (.programOverrun addr s.progLen) := by
  have hne : addr ≠ pcWrap := pc_ne_wrap haddr
  refine ⟨_, runInstr_of_next (exec_bnz_taken addr hpc hz), by simp [hne], ?_⟩
  rw [stepOnce_overrun c (by simp [hne]) (by simpa [hne] using hN)]
  simp [State.overrunFault, hne]

/-- Settles O13, part by part. -/
theorem bnzResult : Obligations.BnzResult := fun addr _ hpc =>
  ⟨exec_bnz addr hpc, packB_toNat addr, fun _ _ h => parseTarget_of_find h _, disassemble_bnz addr,
    fun c hz hN haddr => bnz_taken_then_overrun c hpc hz hN haddr⟩

/-! ## The branch to itself (R92) -/

/-- A state whose next step is a taken BNZ to its own address. -/
structure State.AtSelfBranch (s : State) : Prop where
  pc_le : s.pc.toNat ≤ 62
  pc_lt : s.pc.toNat < s.progLen
  flag : s.z = false
  byte : s.fetch = some (encode (.bnz s.pc))

/-- Such a step is the bookkeeping alone: the branch leaves the state as it is. -/
theorem State.AtSelfBranch.stepOnce_eq {s : State} (h : s.AtSelfBranch) (c : Params) :
    stepOnce c s = .next (s.finishStep c (.bnz s.pc)) :=
  (stepOnce_eq_runInstr (pc_ne_wrap h.pc_le) h.pc_lt h.byte (decodeAs_encode c.notRm _)).trans
    (runInstr_of_next (exec_bnz_taken s.pc h.pc_le h.flag))

/-- The wraparound does not apply to a pc that a step may begin at. -/
theorem State.finishStep_pc_of_le {s : State} (c : Params) (i : Instr) (hpc : s.pc.toNat ≤ 62) :
    (s.finishStep c i).pc = s.pc := by
  rw [State.finishStep_pc, if_neg (pc_ne_wrap hpc)]

/-- The bookkeeping keeps all that makes the next step the same branch. -/
theorem State.AtSelfBranch.finishStep {s : State} (h : s.AtSelfBranch) (c : Params) (i : Instr) :
    (s.finishStep c i).AtSelfBranch := by
  have hpc := s.finishStep_pc_of_le c i h.pc_le
  have hfetch : (s.finishStep c i).fetch = s.fetch := by rw [State.fetch, State.finishStep_store, hpc, State.fetch]
  exact {
    pc_le := hpc ▸ h.pc_le
    pc_lt := by rw [hpc, State.finishStep_progLen]; exact h.pc_lt
    flag := (s.finishStep_z c i).trans h.flag
    byte := by rw [hfetch, hpc]; exact h.byte }

/-- The branch to itself spins, by induction on the steps left. -/
theorem State.AtSelfBranch.spins {s : State} (h : s.AtSelfBranch) (c : Params) (k : Nat) :
    ∃ t, runLoop c k s = .done t ∧ t.pc = s.pc ∧ t.z = false ∧ t.regs = s.regs ∧ t.cyc = s.cyc + k := by
  induction k generalizing s with
  | zero => exact ⟨_, runLoop_zero c s, rfl, h.flag, rfl, rfl⟩
  | succ k ih =>
    obtain ⟨t, hrun, hpc, hz, hregs, hcyc⟩ := ih (h.finishStep c (.bnz s.pc))
    refine ⟨t, (runLoop_succ_of_next k (h.stepOnce_eq c)).trans hrun,
      hpc.trans (s.finishStep_pc_of_le c _ h.pc_le), hz, hregs.trans (s.finishStep_regs c _), ?_⟩
    rw [hcyc, State.finishStep_cyc]
    omega

/-- Settles O45: the byte in the slot is that of a BNZ to the slot's own address. -/
theorem selfBranchSpins : Obligations.SelfBranchSpins := by
  intro c k s hpc hN hz hbyte
  have hself : s.AtSelfBranch := ⟨hpc, hN, hz, hbyte.trans (by rw [encode_bnz])⟩
  exact hself.spins c k

end Sys2Proof.Machine
end

section
/-! PROOFS. The execution cycle: the step in full and its observation (R96, R97, R101), where it may begin (R104), and
the run loop one step at a time: as clocks of the core (R98) and at the corners of a run (R99, R100). -/

namespace Sys2Proof.Machine

/-! ## A step and its observation (R96, R97, R101) -/

/-- All that follows the instruction in a step: the pc wrapped, the step counted, its observation emitted. -/
theorem State.finishStep_eq (c : Params) (i : Instr) (s : State) :
    s.finishStep c i =
      { s with
        pc := if s.pc = pcWrap then 0#6 else s.pc
        cyc := s.cyc + 1
        obs := s.obs ++ [⟨c.obsIndexBase + s.cyc, if s.pc = pcWrap then 0#6 else s.pc, s.z, s.regs, i,
          if s.disasm then some (disassemble i) else none⟩] } := by
  unfold State.finishStep
  rw [State.wrapPc_eq]
  rfl

/-- The observation of a step from `s` to `t` that fetched `b` (R101, D9). -/
def stepObs (c : Params) (b : Byte) (s t : State) : Obs where
  index := c.obsIndexBase + s.cyc
  pc := t.pc
  z := t.z
  regs := t.regs
  instr := decodeByte b
  disasm := if s.disasm then some (disassemble (decodeByte b)) else none

/-- A completed step emits its observation and nothing else. -/
theorem stepOnce_obs {c : Params} {s t : State} {b : Byte} (h : stepOnce c s = .next t) (hb : s.fetch = some b) :
    t.obs = s.obs ++ [stepObs c b s t] := by
  obtain ⟨-, -, b', i, u, hb', hi, hu, rfl⟩ := stepOnce_next h
  obtain rfl : b' = b := Option.some.inj (hb'.symm.trans hb)
  obtain rfl := decodeByte_of_decodeAs hi
  obtain ⟨hcyc, -, -, -, -, hdisasm, hobs⟩ := exec_keeps hu
  rw [State.finishStep_obs, hobs]
  simp [stepObs, State.observe, hcyc, hdisasm]

/-- Settles O31: a clock that answers next does nothing, ends the run, or completes a step. -/
theorem observationOfEachStep : Obligations.ObservationOfEachStep := by
  intro c s t h
  obtain ⟨-, -, rfl⟩ | ⟨-, -, rfl⟩ | ⟨-, -, hstep⟩ := engineStep_next h
  · exact .inl ⟨rfl, rfl⟩
  · exact .inl ⟨rfl, rfl⟩
  · obtain ⟨hcyc, -⟩ := stepOnce_keeps hstep
    obtain ⟨-, -, b, -, -, hb, -⟩ := stepOnce_next hstep
    exact .inr ⟨hcyc, stepObs c b s t, b, stepOnce_obs hstep hb, rfl, ⟨rfl, rfl, rfl⟩, hb, rfl, rfl⟩

/-- Settles O21: an instruction completes from such a pc, and `finishStep` forces only the pc. -/
theorem postStepWraparound : Obligations.PostStepWraparound := by
  intro c i s hpc
  obtain ⟨t, ht⟩ := exec_next_of_ne i (pc_ne_wrap hpc)
  refine ⟨t, t.finishStep c i, ht, runInstr_of_next ht, fun hwrap => ?_, fun hkeep => ?_, t.finishStep_z c i,
    t.finishStep_regs c i⟩
  · exact (t.finishStep_pc c i).trans (if_pos hwrap)
  · exact (t.finishStep_pc c i).trans (if_neg hkeep)

/-- Settles O20: such a clock is a step, whose fetched byte decodes (D4) and whose instruction completes. -/
theorem stepRunsDecodedInstruction : Obligations.StepRunsDecodedInstruction := by
  intro s b hrun hbudget hpc hN hb
  obtain ⟨t, ht⟩ := exec_next_of_ne (decodeByte b) (pc_ne_wrap hpc)
  have hstep : step s = .next (t.finishStep params (decodeByte b)) :=
    calc step s
        = stepOnce params s := engineStep_running hrun hbudget
      _ = runInstr params (decodeByte b) s := stepOnce_eq_runInstr (pc_ne_wrap hpc) hN hb rfl
      _ = .next (t.finishStep params (decodeByte b)) := runInstr_of_next ht
  obtain ⟨hcyc, -, -, -, -, hdisasm, hobs⟩ := exec_keeps ht
  refine ⟨t, ht, hstep.trans ?_⟩
  have hindex : params.obsIndexBase + s.cyc = s.cyc + 1 := Nat.add_comm 1 s.cyc
  rw [State.finishStep_eq, hcyc, hdisasm, hobs, hindex]
  rfl

/-- Settles O33: the clock completed a step, which begins below N and not at 63, and ends wrapped. -/
theorem executesOnlyReachableAddresses : Obligations.ExecutesOnlyReachableAddresses := by
  intro c s t h hcyc
  obtain ⟨-, -, rfl⟩ | ⟨-, -, rfl⟩ | ⟨-, -, hstep⟩ := engineStep_next h
  · exact absurd rfl hcyc
  · exact absurd rfl hcyc
  · obtain ⟨hpc, hN, -⟩ := stepOnce_next hstep
    obtain ⟨-, -, -, -, -, -, hwrapped⟩ := stepOnce_keeps hstep
    have h62 := pc_le_of_ne_wrap hpc
    exact ⟨by omega, hwrapped⟩

/-! ## The run loop, one step at a time (R98) -/

/-- The first step of a run completes, and the rest of the run goes on from there, or it does not, and ends the run
whatever budget is left, with the step's outcome and no observation. -/
theorem runLoop_succ_cases (c : Params) (s : State) :
    (∃ t, stepOnce c s = .next t ∧ ∀ k, runLoop c (k + 1) s = runLoop c k t) ∨
    (∃ e : RunEnd, (∀ t, stepOnce c s ≠ .next t) ∧ (∀ k, runLoop c (k + 1) s = e) ∧
      e.outcome = stepOnce c s ∧ e.state.obs = s.obs) := by
  cases h : stepOnce c s with
  | next t => exact .inl ⟨t, rfl, fun k => runLoop_succ_of_next k h⟩
  | fault r =>
    cases r with
    | programOverrun p n =>
      obtain ⟨hpc, hN⟩ := stepOnce_overrun_only h
      exact .inr ⟨_, by simp, fun k => runLoop_succ_of_overrun c k hpc hN,
        (stepOnce_overrun c hpc hN).symm.trans h, rfl⟩
    | reservedNotBits b =>
      exact .inr ⟨.faulted (.reservedNotBits b) s, by simp, fun k => by simp [runLoop, h], rfl, rfl⟩
  | refused r => exact .inr ⟨.refused r s, by simp, fun k => by simp [runLoop, h], rfl, rfl⟩

/-- Clocking a running core until its budget is spent, and once more to end the run, is the run loop. -/
theorem core_run_eq_runLoop (k : Nat) {s : State} (hrun : s.status = .running) (hbudget : s.budget = s.cyc + k) :
    core.run (k + 1) s = (runLoop params k s).outcome := by
  induction k generalizing s with
  | zero =>
    have hstep : step s = .next { s with status := .done } := by simp [step, engineStep, hrun, hbudget]
    rw [core_run_succ, hstep]
    rfl
  | succ k ih =>
    have hstep : step s = stepOnce params s := engineStep_running hrun (by omega)
    rw [core_run_succ, hstep]
    obtain ⟨t, ht, hloop⟩ | ⟨e, hstop, hloop, hout, -⟩ := runLoop_succ_cases params s
    · obtain ⟨hcyc, hstatus, -, -, hbudget', -⟩ := stepOnce_keeps ht
      rw [ht, hloop]
      exact ih (hstatus.trans hrun) (by omega)
    · rw [hloop, hout]
      cases h : stepOnce params s with
      | next t => exact absurd h (hstop t)
      | fault r => rfl
      | refused r => rfl

/-- Settles O41: a run begins running, with no step executed and the budget it is given. -/
theorem runLoopIsClockedCore : Obligations.RunLoopIsClockedCore := fun image budget d =>
  core_run_eq_runLoop (s := bootState image budget d) (budget.getD defaultBudget) rfl (Nat.zero_add _).symm

/-! ## The corners of a run (R99, R100) -/

/-- Settles O44: an overrun happens at a pc of at most 62, and N is 63 or more. -/
theorem fullStoreNeverOverruns : Obligations.FullStoreNeverOverruns := by
  intro image budget d hlen
  have hend := run_endsAsR9 (c := params) rfl image budget d
  generalize run params image budget d = e at hend ⊢
  cases e with
  | done t =>
    obtain ⟨-, hcyc⟩ := hend
    exact ⟨t, rfl, by simpa [defaultBudget] using hcyc⟩
  | overrun t =>
    obtain ⟨-, hN, hover, hpc, -⟩ := hend
    rw [bootState_progLen, progSlots] at hN
    omega
  | faulted _ _ => exact False.elim hend
  | refused _ _ => exact False.elim hend

/-- Settles O46: the loop tests the budget first, then N; a default budget is 20. -/
theorem budgetCorners : Obligations.BudgetCorners := by
  intro c image d
  refine ⟨runLoop_zero c _, fun k => ?_, rfl⟩
  have hover : run c [] (some (k + 1)) d = .overrun (bootState [] (some (k + 1)) d).raiseOverrun :=
    runLoop_succ_of_overrun c k (by simp [pcWrap]) (by simp)
  exact ⟨_, hover, rfl, rfl, rfl⟩

end Sys2Proof.Machine
end

section
/-! PROOFS. Two runs side by side: what no step looks at, that a run does not depend on it (R102), and that a run with
a smaller budget begins one with a larger (R106). -/

namespace Sys2Proof.Machine

/-! ## What a step does not look at (R102) -/

/-- The state without what no step looks at: the budget, the toggle and the observations. -/
def State.bare (s : State) : State := { s with budget := 0, disasm := false, obs := [] }

/-- What a step tests and fetches before its instruction is in the bare state. -/
theorem State.agree_of_bare_eq {s s' : State} (h : s.bare = s'.bare) :
    s'.pc = s.pc ∧ s'.progLen = s.progLen ∧ s'.fetch = s.fetch ∧ s'.overrunFault = s.overrunFault := by
  have hpc := congrArg State.pc h
  have hlen := congrArg State.progLen h
  have hfetch := congrArg State.fetch h
  have hfault := congrArg State.overrunFault h
  exact ⟨hpc.symm, hlen.symm, hfetch.symm, hfault.symm⟩

/-- An instruction does to the bare state what it does to the whole. -/
theorem exec_bare {i : Instr} {s t : State} (h : exec i s = .next t) : exec i s.bare = .next t.bare := by
  obtain ⟨rd, hd⟩ | ⟨addr, rfl⟩ := i.dest_or_bnz
  · obtain ⟨hpc, rfl⟩ := (exec_next_iff_of_dest hd).1 h
    have hres : resultOf i s.bare = resultOf i s := resultOf_congr fun _ _ => rfl
    exact (exec_next_iff_of_dest hd).2 ⟨hpc, by rw [hres]; rfl⟩
  · obtain ⟨hpc, rfl⟩ := exec_bnz_next_iff.1 h
    exact exec_bnz_next_iff.2 ⟨hpc, rfl⟩

theorem State.finishStep_bare (c : Params) (i : Instr) (s : State) :
    (s.finishStep c i).bare = (s.bare.finishStep c i).bare := by
  rw [State.finishStep_eq, State.finishStep_eq]
  rfl

/-- From two states with the same bare state an instruction completes, in two such states again. -/
theorem runInstr_congr (c : Params) (i : Instr) {s s' : State} (h : s.bare = s'.bare) (hpc : s.pc ≠ pcWrap) :
    ∃ t t', runInstr c i s = .next t ∧ runInstr c i s' = .next t' ∧ t.bare = t'.bare := by
  obtain ⟨hpc', -⟩ := State.agree_of_bare_eq h
  obtain ⟨t, ht⟩ := exec_next_of_ne i hpc
  obtain ⟨t', ht'⟩ := exec_next_of_ne i (hpc'.trans_ne hpc)
  have hbare : t.bare = t'.bare := Host.Outcome.next.inj ((exec_bare ht).symm.trans (h ▸ exec_bare ht'))
  exact ⟨_, _, runInstr_of_next ht, runInstr_of_next ht', by
    rw [State.finishStep_bare, hbare, ← State.finishStep_bare]⟩

/-- Steps from two states with the same bare state end alike: both complete, on one fetched byte and again in two such
states, or both stop for one reason. -/
theorem stepOnce_congr (c : Params) {s s' : State} (h : s.bare = s'.bare) :
    (∃ t t' b, stepOnce c s = .next t ∧ stepOnce c s' = .next t' ∧ t.bare = t'.bare ∧
      t.obs = s.obs ++ [stepObs c b s t] ∧ t'.obs = s'.obs ++ [stepObs c b s' t']) ∨
    (∃ r, stepOnce c s = .fault r ∧ stepOnce c s' = .fault r) ∨
    (∃ r, stepOnce c s = .refused r ∧ stepOnce c s' = .refused r) := by
  obtain ⟨hpc', hlen', hfetch', hfault'⟩ := State.agree_of_bare_eq h
  by_cases hpc : s.pc = pcWrap
  · exact .inr (.inr ⟨.stepFrom63, by simp [stepOnce, hpc], by simp [stepOnce, hpc', hpc]⟩)
  have hpcs : s'.pc ≠ pcWrap := hpc'.trans_ne hpc
  rcases Nat.lt_or_ge s.pc.toNat s.progLen with hN | hN
  · cases hb : s.fetch with
    | none =>
      exact .inr (.inr ⟨.slotNotLoaded s.pc, by simp [stepOnce, hpc, Nat.not_le.2 hN, hb],
        by simp [stepOnce, hpc', hlen', hfetch', hpc, Nat.not_le.2 hN, hb]⟩)
    | some b =>
      cases hd : decodeAs c.notRm b with
      | error e =>
        exact .inr (.inl ⟨.reservedNotBits b, by simp [stepOnce, hpc, Nat.not_le.2 hN, hb, hd],
          by simp [stepOnce, hpc', hlen', hfetch', hpc, Nat.not_le.2 hN, hb, hd]⟩)
      | ok i =>
        have hNs : s'.pc.toNat < s'.progLen := by rwa [hpc', hlen']
        have hbs : s'.fetch = some b := hfetch'.trans hb
        obtain ⟨t, t', ht, ht', hbare⟩ := runInstr_congr c i h hpc
        rw [← stepOnce_eq_runInstr hpc hN hb hd] at ht
        rw [← stepOnce_eq_runInstr hpcs hNs hbs hd] at ht'
        exact .inl ⟨t, t', b, ht, ht', hbare, stepOnce_obs ht hb, stepOnce_obs ht' hbs⟩
  · exact .inr (.inl ⟨s.overrunFault, stepOnce_overrun c hpc hN,
      (stepOnce_overrun c hpcs (by rwa [hpc', hlen'])).trans (by rw [hfault'])⟩)

/-- `f` hides a part of the state that never comes back into view: two states that look alike through `f` still do
after a completed step each. -/
structure Blind (c : Params) (f : State → State) : Prop where
  /-- At most what no step looks at is hidden. -/
  bare : ∀ {s s'}, f s = f s' → s.bare = s'.bare
  /-- Ending a run alike keeps the two states alike. -/
  status : ∀ {s s'} st, f s = f s' → f { s with status := st } = f { s' with status := st }
  /-- So does a completed step, which is given as `stepOnce_congr` describes it. -/
  step : ∀ {s s' t t'} b, f s = f s' → stepOnce c s = .next t → stepOnce c s' = .next t' → t.bare = t'.bare →
    t.obs = s.obs ++ [stepObs c b s t] → t'.obs = s'.obs ++ [stepObs c b s' t'] → f t = f t'

/-- Runs from two states that look alike through `f` end alike through it, by induction on the steps. -/
theorem Blind.runLoop_congr {c : Params} {f : State → State} (hf : Blind c f) (k : Nat) {s s' : State}
    (h : f s = f s') : (runLoop c k s).mapState f = (runLoop c k s').mapState f := by
  induction k generalizing s s' with
  | zero => exact congrArg RunEnd.done (hf.status .done h)
  | succ k ih =>
    obtain ⟨t, t', b, ht, ht', hbare, hobs, hobs'⟩ | ⟨r, hr, hr'⟩ | ⟨r, hr, hr'⟩ := stepOnce_congr c (hf.bare h)
    · rw [runLoop_succ_of_next k ht, runLoop_succ_of_next k ht']
      exact ih (hf.step b h ht ht' hbare hobs hobs')
    · cases r with
      | programOverrun p n =>
        have hover : f s.raiseOverrun = f s'.raiseOverrun := hf.status .overrun h
        simpa [runLoop, hr, hr', RunEnd.mapState] using hover
      | reservedNotBits b => simpa [runLoop, hr, hr', RunEnd.mapState] using h
    · simpa [runLoop, hr, hr', RunEnd.mapState] using h

/-! ## The observations and the toggle (R102) -/

/-- An observation without its disassembly text. -/
def Obs.eraseText (o : Obs) : Obs := { o with disasm := none }

/-- But for its text an observation depends only on what a step looks at. -/
theorem stepObs_eraseText (c : Params) (b : Byte) {s s' t t' : State} (h : s.bare = s'.bare) (ht : t.bare = t'.bare) :
    (stepObs c b s t).eraseText = (stepObs c b s' t').eraseText :=
  calc (stepObs c b s t).eraseText
      = stepObs c b s.bare t.bare := rfl
    _ = stepObs c b s'.bare t'.bare := by rw [h, ht]
    _ = (stepObs c b s' t').eraseText := rfl

theorem State.eraseObs_eq_iff {s s' : State} :
    s.eraseObs = s'.eraseObs ↔ s.bare = s'.bare ∧ s.budget = s'.budget := by
  simp only [State.eraseObs, State.bare, State.mk.injEq]
  tauto

theorem State.eraseDisasm_eq_iff {s s' : State} :
    s.eraseDisasm = s'.eraseDisasm ↔
      s.bare = s'.bare ∧ s.budget = s'.budget ∧ s.obs.map Obs.eraseText = s'.obs.map Obs.eraseText := by
  simp only [State.eraseDisasm, State.bare, State.mk.injEq]
  tauto

theorem blind_eraseObs (c : Params) : Blind c State.eraseObs where
  bare h := (State.eraseObs_eq_iff.1 h).1
  status st h := congrArg (fun u : State => { u with status := st }) h
  step b h ht ht' hbare _ _ := by
    obtain ⟨-, hb⟩ := State.eraseObs_eq_iff.1 h
    obtain ⟨-, -, -, -, hbudget, -⟩ := stepOnce_keeps ht
    obtain ⟨-, -, -, -, hbudget', -⟩ := stepOnce_keeps ht'
    exact State.eraseObs_eq_iff.2 ⟨hbare, by omega⟩

theorem blind_eraseDisasm (c : Params) : Blind c State.eraseDisasm where
  bare h := (State.eraseDisasm_eq_iff.1 h).1
  status st h := congrArg (fun u : State => { u with status := st }) h
  step b h ht ht' hbare hobs hobs' := by
    obtain ⟨hs, hb, htext⟩ := State.eraseDisasm_eq_iff.1 h
    obtain ⟨-, -, -, -, hbudget, -⟩ := stepOnce_keeps ht
    obtain ⟨-, -, -, -, hbudget', -⟩ := stepOnce_keeps ht'
    refine State.eraseDisasm_eq_iff.2 ⟨hbare, by omega, ?_⟩
    simp [hobs, hobs', htext, stepObs_eraseText c b hs hbare]

/-- Settles O30: both erasures hide what no step looks at. -/
theorem observationNeverFeedsBack : Obligations.ObservationNeverFeedsBack :=
  ⟨fun c k _ _ h => (blind_eraseObs c).runLoop_congr k h, fun c k _ _ h => (blind_eraseDisasm c).runLoop_congr k h⟩

/-! ## Runs with two budgets (R106) -/

/-- A state without its budget. -/
def State.eraseBudget (s : State) : State := { s with budget := 0 }

theorem State.eraseBudget_eq_iff {s s' : State} :
    s.eraseBudget = s'.eraseBudget ↔ s.bare = s'.bare ∧ s.disasm = s'.disasm ∧ s.obs = s'.obs := by
  simp only [State.eraseBudget, State.bare, State.mk.injEq]
  tauto

/-- An observation does not depend on the budget. -/
theorem stepObs_congr (c : Params) (b : Byte) {s s' t t' : State} (h : s.eraseBudget = s'.eraseBudget)
    (ht : t.bare = t'.bare) : stepObs c b s t = stepObs c b s' t' :=
  calc stepObs c b s t
      = stepObs c b s.eraseBudget t.bare := rfl
    _ = stepObs c b s'.eraseBudget t'.bare := by rw [h, ht]
    _ = stepObs c b s' t' := rfl

/-- Observations are not hidden here, so an observation must not depend on the budget. -/
theorem blind_eraseBudget (c : Params) : Blind c State.eraseBudget where
  bare h := (State.eraseBudget_eq_iff.1 h).1
  status st h := congrArg (fun u : State => { u with status := st }) h
  step b h ht ht' hbare hobs hobs' := by
    obtain ⟨-, hd, ho⟩ := State.eraseBudget_eq_iff.1 h
    obtain ⟨-, -, -, -, -, hdisasm, -⟩ := stepOnce_keeps ht
    obtain ⟨-, -, -, -, -, hdisasm', -⟩ := stepOnce_keeps ht'
    exact State.eraseBudget_eq_iff.2 ⟨hbare, by rw [hdisasm, hd, hdisasm'],
      by rw [hobs, ho, stepObs_congr c b h hbare, hobs']⟩

theorem RunEnd.state_mapState (f : State → State) (e : RunEnd) : (e.mapState f).state = f e.state := by
  cases e <;> rfl

/-- The loop counts its steps itself: the budget in the state does not matter to it. -/
theorem runLoop_obs_of_eraseBudget (c : Params) (k : Nat) {s s' : State} (h : s.eraseBudget = s'.eraseBudget) :
    (runLoop c k s).state.obs = (runLoop c k s').state.obs := by
  have hends : (runLoop c k s).state.eraseBudget = (runLoop c k s').state.eraseBudget := by
    rw [← RunEnd.state_mapState State.eraseBudget, (blind_eraseBudget c).runLoop_congr k h, RunEnd.state_mapState]
  obtain ⟨-, -, hobs⟩ := State.eraseBudget_eq_iff.1 hends
  exact hobs

/-- A run only appends observations. -/
theorem obs_prefix_runLoop (c : Params) (k : Nat) (s : State) : s.obs <+: (runLoop c k s).state.obs := by
  induction k generalizing s with
  | zero => exact List.prefix_rfl
  | succ k ih =>
    obtain ⟨t, ht, hloop⟩ | ⟨e, -, hloop, -, hobs⟩ := runLoop_succ_cases c s
    · obtain ⟨o, hobs, -⟩ := stepOnce_emits ht
      rw [hloop]
      exact (hobs ▸ List.prefix_append s.obs [o]).trans (ih t)
    · rw [hloop, hobs]

/-- From one state, more steps extend the observations: both loops take the same first step, if it completes. -/
theorem runLoop_obs_prefix (c : Params) {k n : Nat} (h : k ≤ n) (s : State) :
    (runLoop c k s).state.obs <+: (runLoop c n s).state.obs := by
  induction k generalizing n s with
  | zero => exact obs_prefix_runLoop c n s
  | succ k ih =>
    obtain ⟨n, rfl⟩ := Nat.exists_eq_add_of_le' (Nat.le_trans (Nat.le_add_left 1 k) h)
    obtain ⟨t, -, hloop⟩ | ⟨e, -, hloop, -⟩ := runLoop_succ_cases c s
    · rw [hloop, hloop]
      exact ih (by omega) t
    · rw [hloop, hloop]

/-- Settles O43: the two runs begin in states that differ only in the budget. -/
theorem largerBudgetExtendsRun : Obligations.LargerBudgetExtendsRun := by
  intro c image k n d h
  have hsame : (run c image (some k) d).state.obs = (runLoop c k (bootState image (some n) d)).state.obs :=
    runLoop_obs_of_eraseBudget c k rfl
  rw [hsame]
  exact runLoop_obs_prefix c h _

end Sys2Proof.Machine
end

section
/-! PROOFS. The engine's one exception (R110 to R112, R117): exactly where a clock raises it, what it leaves, that only
reset leads out of it, and the budget test that comes before it. -/

namespace Sys2Proof.Machine

/-! ## Where the exception is raised (R110, R117) -/

/-- The budget test comes before the overrun check and everything else of a step (R98, R117). -/
theorem engineStep_budget_spent (c : Params) {s : State} (hrun : s.status = .running) (hb : s.budget ≤ s.cyc) :
    engineStep c s = .next { s with status := .done } := by
  simp [engineStep, hrun, hb]

/-- No fetch is made: the premises say nothing of the program store. -/
theorem engineStep_overrun_of_length_le (c : Params) {s : State} (hrun : s.status = .running) (hb : s.cyc < s.budget)
    (hpc : s.pc.toNat ≤ 62) (hN : s.progLen ≤ s.pc.toNat) : engineStep c s = .fault s.overrunFault :=
  (engineStep_running hrun hb).trans (stepOnce_overrun c (pc_ne_wrap hpc) hN)

/-- The converse of `stepOnce_overrun`: a step raises `ProgramOverrun` at `pc >= N` only, and names that `pc` and
`N`. -/
theorem stepOnce_overrun_args {c : Params} {s : State} {p : Addr} {n : Nat}
    (h : stepOnce c s = .fault (.programOverrun p n)) : s.progLen ≤ s.pc.toNat ∧ p = s.pc ∧ n = s.progLen := by
  obtain ⟨hpc, hN⟩ := stepOnce_overrun_only h
  have hfault : Fault.programOverrun p n = s.overrunFault :=
    Host.Outcome.fault.inj (h.symm.trans (stepOnce_overrun c hpc hN))
  obtain ⟨hp, hn⟩ := Fault.programOverrun.inj hfault
  exact ⟨hN, hp, hn⟩

/-- Settles O22: `engineStep_overrun_of_length_le` in the state with the other store, and `stepOnce_overrun_args`. -/
theorem overrunExactlyAtLength : Obligations.OverrunExactlyAtLength := by
  intro c s hrun hb hpc
  constructor
  · intro hN m
    exact engineStep_overrun_of_length_le c (s := { s with store := m }) hrun hb hpc hN
  · intro p n h
    rw [engineStep_running hrun hb] at h
    exact stepOnce_overrun_args h

/-- Settles O25: the test of `engineStep` comes before `stepOnce`, so no premise on `pc` and N is needed. -/
theorem budgetTestedFirst : Obligations.BudgetTestedFirst :=
  fun c _ hrun hb => engineStep_budget_spent c hrun hb

/-! ## What the exception leaves (R111) -/

theorem tick_of_overrun {c : Params} {s : State} (h : engineStep c s = .fault s.overrunFault) :
    tick c s = s.raiseOverrun := by
  simp [tick, h, State.overrunFault]

/-- Settles O23: the clock that raises the exception leaves `raiseOverrun`, which sets the status alone. -/
theorem failingStepOnlySetsStatus : Obligations.FailingStepOnlySetsStatus :=
  fun c _ hrun hb hpc hN => tick_of_overrun (engineStep_overrun_of_length_le c hrun hb hpc hN)

/-! ## Only reset leads out of it (R112, D7) -/

/-- A failed run fails again at every clock. -/
theorem engineStep_in_overrun (c : Params) {s : State} (hs : s.status = .overrun) :
    engineStep c s = .fault s.overrunFault := by
  simp [engineStep, hs]

theorem State.raiseOverrun_of_overrun {s : State} (hs : s.status = .overrun) : s.raiseOverrun = s := by
  rw [State.raiseOverrun, ← hs]

/-- Settles O24: the exception raised again sets the status it has, so the state is a fixed point of `tick`; the ports
are closed because the engine is not Idle; and `fresh` is idempotent. -/
theorem overrunIsFinal : Obligations.OverrunIsFinal := by
  intro c s hs
  have hfault : engineStep c s = .fault s.overrunFault := engineStep_in_overrun c hs
  have hfix : tick c s = s := (tick_of_overrun hfault).trans (State.raiseOverrun_of_overrun hs)
  have hclosed : ∀ a : HostAction, a ≠ .reset → hostAct a s = .refused (.portClosed .overrun) :=
    fun a ha => hs ▸ hostAct_refused (by simp [hs]) ha
  exact ⟨Function.iterate_fixed hfix, hfault, hclosed, s.fresh, rfl, rfl, s.fresh_fresh.symm⟩

end Sys2Proof.Machine
end

section
/-! PROOFS. The state after reset, and `rst` from any state (R130, R131, R133): both give a fresh machine, and what
`fresh` clears and keeps is said once. -/

namespace Sys2Proof.Machine

/-! ## The fresh machine (R130, R131) -/

@[simp] theorem State.fresh_regs_get (s : State) (r : Reg) : s.fresh.regs.get r = 0x00#8 := by
  cases r <;> rfl

/-- What `fresh` clears, from any state. -/
theorem State.fresh_cleared (s : State) :
    (∀ r : Reg, s.fresh.regs.get r = 0x00#8) ∧ s.fresh.z = false ∧ s.fresh.pc = 0#6 ∧ s.fresh.cyc = 0 ∧
      s.fresh.status = .idle ∧ s.fresh.obs = [] :=
  ⟨s.fresh_regs_get, rfl, rfl, rfl, rfl, rfl⟩

/-- What `fresh` keeps: the program and the run parameters, which the host supplies. -/
theorem State.fresh_keeps_program (s : State) :
    s.fresh.store = s.store ∧ s.fresh.progLen = s.progLen ∧ s.fresh.budget = s.budget ∧ s.fresh.disasm = s.disasm :=
  ⟨rfl, rfl, rfl, rfl⟩

@[simp] theorem State.fresh_reset : State.reset.fresh = State.reset := rfl

/-- Settles O34: the state after reset is a fresh machine. -/
theorem resetState : Obligations.ResetState := by
  have hcleared := State.reset.fresh_cleared
  rwa [State.fresh_reset] at hcleared

/-! ## `rst` (R133) -/

/-- `rst` looks at no status. -/
@[simp] theorem hostAct_reset (s : State) : hostAct .reset s = .next s.fresh := rfl

/-- Settles O35: `rst` answers the fresh machine, by what `fresh` clears and what it keeps. -/
theorem rstFromAnyState : Obligations.RstFromAnyState := by
  intro s
  obtain ⟨hregs, hz, hpc, hcyc, hstatus, hobs⟩ := s.fresh_cleared
  exact ⟨s.fresh, hostAct_reset s, hregs, hz, hpc, hcyc, hstatus, hobs, s.fresh_keeps_program⟩

end Sys2Proof.Machine
end
